-- ==== Sys2Proof/Word.lean ====
section
/-! DEFINITION. The words of the machine: 16-bit memory words and registers (R8, R16), 8-bit characters (R36, D10),
register numbers (R20, R74). Arithmetic on a `Word` wraps modulo 65536 (R11), which is `BitVec`'s own. -/

namespace Sys2Proof

/-- R16: "Word — 16-bit storage unit (register or memory cell)." -/
abbrev Word := BitVec 16

/-- A character of the input or output stream (R36, R37), and the width of a trap vector (R76). -/
abbrev Byte := BitVec 8

/-- R20, R74: a register number 0..7; every value names a register. -/
abbrev RegNum := Fin 8

end Sys2Proof
end

