-- ==== Sys2Proof/Syntax.lean ====
section
/-! DEFINITION. The instructions, one constructor per row of `spec/opcode_table.json` (R78, R111). Signed fields are
carried as Words already sign-extended (R77, R78). -/

namespace Sys2Proof

/-- R78: "tagged variant over 16 opcode slots; each variant carries only the operand fields its opcode requires". The
first 18 constructors are the variants the decoder gives; `reserved` is the illegal row of the table, which has no
variant (R78, R82); the last seven are the table's refining rows, "never decoder outputs" (R103, R111; log 14). -/
inductive Instr where
  /-- BR (R161). -/
  | br (n z p : Bool) (off : Word)
  /-- ADD, register mode (R142). -/
  | addReg (dr sr1 sr2 : RegNum)
  /-- ADD, immediate mode (R143). -/
  | addImm (dr sr1 : RegNum) (imm : Word)
  /-- LD (R181). -/
  | ld (dr : RegNum) (off : Word)
  /-- ST (R185). -/
  | st (sr : RegNum) (off : Word)
  /-- JSR (R164). -/
  | jsr (off : Word)
  /-- JSRR (R165). -/
  | jsrr (base : RegNum)
  /-- AND, register mode (R144). -/
  | andReg (dr sr1 sr2 : RegNum)
  /-- AND, immediate mode (R145). -/
  | andImm (dr sr1 : RegNum) (imm : Word)
  /-- LDR (R182). -/
  | ldr (dr base : RegNum) (off : Word)
  /-- STR (R186). -/
  | str (sr base : RegNum) (off : Word)
  /-- RTI (R214). -/
  | rti
  /-- NOT (R146). -/
  | not (dr sr : RegNum)
  /-- LDI (R183). -/
  | ldi (dr : RegNum) (off : Word)
  /-- STI (R187). -/
  | sti (sr : RegNum) (off : Word)
  /-- JMP (R163). -/
  | jmp (base : RegNum)
  /-- LEA (R184). -/
  | lea (dr : RegNum) (off : Word)
  /-- TRAP (R200). -/
  | trap (vect : Byte)
  /-- The reserved opcode 1101 (R82), a row of the table marked illegal. -/
  | reserved
  /-- RET, the pseudo-instruction JMP R7 (R103). -/
  | ret
  /-- TRAP x20 (R203). -/
  | trapGetc
  /-- TRAP x21 (R204). -/
  | trapOut
  /-- TRAP x22 (R208). -/
  | trapPuts
  /-- TRAP x23 (R206). -/
  | trapIn
  /-- TRAP x24 (R210). -/
  | trapPutsp
  /-- TRAP x25 (R212). -/
  | trapHalt
  deriving DecidableEq, Repr

/-- The decoder variant a row of the table stands for: a refining row's parent row (R103, R111), every other row
itself. -/
def Instr.leaf : Instr → Instr
  | .ret => .jmp 7
  | .trapGetc => .trap 0x20#8
  | .trapOut => .trap 0x21#8
  | .trapPuts => .trap 0x22#8
  | .trapIn => .trap 0x23#8
  | .trapPutsp => .trap 0x24#8
  | .trapHalt => .trap 0x25#8
  | .br n z p off => .br n z p off
  | .addReg dr sr1 sr2 => .addReg dr sr1 sr2
  | .addImm dr sr1 imm => .addImm dr sr1 imm
  | .ld dr off => .ld dr off
  | .st sr off => .st sr off
  | .jsr off => .jsr off
  | .jsrr base => .jsrr base
  | .andReg dr sr1 sr2 => .andReg dr sr1 sr2
  | .andImm dr sr1 imm => .andImm dr sr1 imm
  | .ldr dr base off => .ldr dr base off
  | .str sr base off => .str sr base off
  | .rti => .rti
  | .not dr sr => .not dr sr
  | .ldi dr off => .ldi dr off
  | .sti sr off => .sti sr off
  | .jmp base => .jmp base
  | .lea dr off => .lea dr off
  | .trap vect => .trap vect
  | .reserved => .reserved

/-- The 18 variants of R78: what the decoder gives. -/
def Instr.isVariant : Instr → Bool
  | .reserved | .ret | .trapGetc | .trapOut | .trapPuts | .trapIn | .trapPutsp | .trapHalt => false
  | .br _ _ _ _ | .addReg _ _ _ | .addImm _ _ _ | .ld _ _ | .st _ _ | .jsr _ | .jsrr _ | .andReg _ _ _
  | .andImm _ _ _ | .ldr _ _ _ | .str _ _ _ | .rti | .not _ _ | .ldi _ _ | .sti _ _ | .jmp _ | .lea _ _
  | .trap _ => true

end Sys2Proof
end

