-- ==== Sys2Proof/WellFormed.lean ====
section
/-! DEFINITION. The operand checks of R93 over the ranges of R76, and which rows have an encoding at all (R91).
Register numbers and the trap vector are in range by their types. -/

namespace Sys2Proof

/-- R76: the signed reading of `v` lies in the range of a signed field `k` bits wide. -/
def fitsSigned (k : Nat) (v : Word) : Bool :=
  decide (-(2 ^ (k - 1) : Int) ≤ v.toInt) && decide (v.toInt ≤ 2 ^ (k - 1) - 1)

/-- R93: every signed operand lies in the range of its field: imm5, off6, off9, off11. -/
def Instr.operandsInRange : Instr → Bool
  | .br _ _ _ off => fitsSigned 9 off
  | .addImm _ _ imm => fitsSigned 5 imm
  | .andImm _ _ imm => fitsSigned 5 imm
  | .ld _ off => fitsSigned 9 off
  | .ldi _ off => fitsSigned 9 off
  | .lea _ off => fitsSigned 9 off
  | .st _ off => fitsSigned 9 off
  | .sti _ off => fitsSigned 9 off
  | .jsr off => fitsSigned 11 off
  | .ldr _ _ off => fitsSigned 6 off
  | .str _ _ off => fitsSigned 6 off
  | .addReg _ _ _ | .andReg _ _ _ | .not _ _ | .jsrr _ | .jmp _ | .trap _ | .rti | .reserved | .ret | .trapGetc
  | .trapOut | .trapPuts | .trapIn | .trapPutsp | .trapHalt => true

/-- R91: "No schema exists for the reserved opcode"; every other row has an encoding. -/
def Instr.hasSchema : Instr → Bool
  | .reserved => false
  | .br _ _ _ _ | .addReg _ _ _ | .addImm _ _ _ | .ld _ _ | .st _ _ | .jsr _ | .jsrr _ | .andReg _ _ _
  | .andImm _ _ _ | .ldr _ _ _ | .str _ _ _ | .rti | .not _ _ | .ldi _ _ | .sti _ _ | .jmp _ | .lea _ _
  | .trap _ | .ret | .trapGetc | .trapOut | .trapPuts | .trapIn | .trapPutsp | .trapHalt => true

/-- An instruction the encoder can encode: operands in range and a schema (R91, R93). -/
def Instr.wellFormed (i : Instr) : Bool :=
  i.operandsInRange && i.hasSchema

/-- `Instr.wellFormed` as a proposition. -/
abbrev Instr.WellFormed (i : Instr) : Prop := i.wellFormed = true

end Sys2Proof
end

