-- ==== Sys2Proof/Decode.lean ====
section
/-! DEFINITION. The decoder (R70 to R88) and the encoder, its inverse (R90 to R95). The opcode numbers and field
positions are the spec's adopted values (D1, D2; log 15). -/

namespace Sys2Proof

/-- R12: `field w p s` is bits `[p - s + 1, p]` of `w`, read as unsigned. -/
def field (w : Word) (p s : Nat) : BitVec s := w.extractLsb' (p + 1 - s) s

/-- R13: `sext_s(v)`, "by replicating bit s-1 upward" to a full Word. -/
def sext {s : Nat} (v : BitVec s) : Word := v.signExtend 16

/-- R13: `zext_s(v)`, "`v` with zeros in bits 15..s". -/
def zext {s : Nat} (v : BitVec s) : Word := v.setWidth 16

/-- R71: "opcode = bits [15:12]". -/
def opcodeOf (w : Word) : BitVec 4 := field w 15 4

/-- R74: the register number in the 3 bits whose most significant is bit `p`. -/
def regField (w : Word) (p : Nat) : RegNum := (field w p 3).toFin

/-- Why decoding fails (R82): the one reason there is. -/
inductive DecodeError where
  /-- The opcode is the reserved code 1101 (R82). -/
  | illegalInstruction
  deriving DecidableEq, Repr

/-- R81: the decode function, total on every word; it fails on the reserved opcode alone (R82). -/
def decode (w : Word) : Except DecodeError Instr :=
  match opcodeOf w with
  | 0b0000#4 => .ok (.br (w.getLsbD 11) (w.getLsbD 10) (w.getLsbD 9) (sext (field w 8 9)))
  | 0b0001#4 =>
    if w.getLsbD 5 then .ok (.addImm (regField w 11) (regField w 8) (sext (field w 4 5)))
    else .ok (.addReg (regField w 11) (regField w 8) (regField w 2))
  | 0b0010#4 => .ok (.ld (regField w 11) (sext (field w 8 9)))
  | 0b0011#4 => .ok (.st (regField w 11) (sext (field w 8 9)))
  | 0b0100#4 =>
    if w.getLsbD 11 then .ok (.jsr (sext (field w 10 11)))
    else .ok (.jsrr (regField w 8))
  | 0b0101#4 =>
    if w.getLsbD 5 then .ok (.andImm (regField w 11) (regField w 8) (sext (field w 4 5)))
    else .ok (.andReg (regField w 11) (regField w 8) (regField w 2))
  | 0b0110#4 => .ok (.ldr (regField w 11) (regField w 8) (sext (field w 5 6)))
  | 0b0111#4 => .ok (.str (regField w 11) (regField w 8) (sext (field w 5 6)))
  | 0b1000#4 => .ok .rti
  | 0b1001#4 => .ok (.not (regField w 11) (regField w 8))
  | 0b1010#4 => .ok (.ldi (regField w 11) (sext (field w 8 9)))
  | 0b1011#4 => .ok (.sti (regField w 11) (sext (field w 8 9)))
  | 0b1100#4 => .ok (.jmp (regField w 8))
  | 0b1110#4 => .ok (.lea (regField w 11) (sext (field w 8 9)))
  | 0b1111#4 => .ok (.trap (field w 7 8))
  | _ => .error .illegalInstruction

/-- The names of the fields of R91's schemas. -/
inductive FieldName where
  | op | dr | sr | sr1 | sr2 | baseR | mode | pad | n | z | p | imm5 | off6 | off9 | off11 | trapvect8
  deriving DecidableEq, Repr

/-- One entry of a schema: a field's name, its width and the value to pack (R90, R91). -/
structure SchemaField where
  name : FieldName
  width : Nat
  value : Word
  deriving DecidableEq, Repr

/-- Why encoding fails (R95). -/
inductive EncodeError where
  /-- "operand token does not match the opcode's expected shape" or is out of its field's range (R93, R95). -/
  | invalidOperand
  /-- "packed field widths do not sum to 16" (R90, R95). -/
  | malformedInstruction
  deriving DecidableEq, Repr

/-- A register number as the value of a 3-bit schema field (R91). -/
def regValue (r : RegNum) : Word := BitVec.ofNat 16 r.val

/-- A request bit as the value of a 1-bit schema field (R91). -/
def bitValue (b : Bool) : Word := if b then 1#16 else 0#16

/-- The schema of an ADD or AND in register mode (R91). -/
def schemaOpReg (op : Word) (dr sr1 sr2 : RegNum) : List SchemaField :=
  [⟨.op, 4, op⟩, ⟨.dr, 3, regValue dr⟩, ⟨.sr1, 3, regValue sr1⟩, ⟨.mode, 1, 0#16⟩, ⟨.pad, 2, 0#16⟩,
    ⟨.sr2, 3, regValue sr2⟩]

/-- The schema of an ADD or AND in immediate mode (R91). -/
def schemaOpImm (op : Word) (dr sr1 : RegNum) (imm : Word) : List SchemaField :=
  [⟨.op, 4, op⟩, ⟨.dr, 3, regValue dr⟩, ⟨.sr1, 3, regValue sr1⟩, ⟨.mode, 1, 1#16⟩, ⟨.imm5, 5, imm⟩]

/-- The schema of a PC-relative instruction with a register (R91). -/
def schemaPcRel (op : Word) (name : FieldName) (r : RegNum) (off : Word) : List SchemaField :=
  [⟨.op, 4, op⟩, ⟨name, 3, regValue r⟩, ⟨.off9, 9, off⟩]

/-- The schema of LDR and STR (R91). -/
def schemaBase (op : Word) (name : FieldName) (r base : RegNum) (off : Word) : List SchemaField :=
  [⟨.op, 4, op⟩, ⟨name, 3, regValue r⟩, ⟨.baseR, 3, regValue base⟩, ⟨.off6, 6, off⟩]

/-- The schema of JMP and RET (R91). -/
def schemaJmp (base : RegNum) : List SchemaField :=
  [⟨.op, 4, 0b1100#16⟩, ⟨.pad, 3, 0#16⟩, ⟨.baseR, 3, regValue base⟩, ⟨.pad, 6, 0#16⟩]

/-- The schema of TRAP and its six services (R91). -/
def schemaTrap (vect : Byte) : List SchemaField :=
  [⟨.op, 4, 0b1111#16⟩, ⟨.pad, 4, 0#16⟩, ⟨.trapvect8, 8, zext vect⟩]

/-- R91: the schemas, one per row, from bit 15 down, with the fill values of R92. The reserved opcode has none: its
list is empty, so that the width check of R90 refuses it (log 17). -/
def schema : Instr → List SchemaField
  | .addReg dr sr1 sr2 => schemaOpReg 0b0001#16 dr sr1 sr2
  | .addImm dr sr1 imm => schemaOpImm 0b0001#16 dr sr1 imm
  | .andReg dr sr1 sr2 => schemaOpReg 0b0101#16 dr sr1 sr2
  | .andImm dr sr1 imm => schemaOpImm 0b0101#16 dr sr1 imm
  | .not dr sr => [⟨.op, 4, 0b1001#16⟩, ⟨.dr, 3, regValue dr⟩, ⟨.sr, 3, regValue sr⟩, ⟨.pad, 6, 0b111111#16⟩]
  | .br n z p off =>
    [⟨.op, 4, 0b0000#16⟩, ⟨.n, 1, bitValue n⟩, ⟨.z, 1, bitValue z⟩, ⟨.p, 1, bitValue p⟩, ⟨.off9, 9, off⟩]
  | .jmp base => schemaJmp base
  | .ret => schemaJmp 7
  | .jsr off => [⟨.op, 4, 0b0100#16⟩, ⟨.mode, 1, 1#16⟩, ⟨.off11, 11, off⟩]
  | .jsrr base =>
    [⟨.op, 4, 0b0100#16⟩, ⟨.mode, 1, 0#16⟩, ⟨.pad, 2, 0#16⟩, ⟨.baseR, 3, regValue base⟩, ⟨.pad, 6, 0#16⟩]
  | .ld dr off => schemaPcRel 0b0010#16 .dr dr off
  | .ldi dr off => schemaPcRel 0b1010#16 .dr dr off
  | .ldr dr base off => schemaBase 0b0110#16 .dr dr base off
  | .lea dr off => schemaPcRel 0b1110#16 .dr dr off
  | .st sr off => schemaPcRel 0b0011#16 .sr sr off
  | .sti sr off => schemaPcRel 0b1011#16 .sr sr off
  | .str sr base off => schemaBase 0b0111#16 .sr sr base off
  | .trap vect => schemaTrap vect
  | .trapGetc => schemaTrap 0x20#8
  | .trapOut => schemaTrap 0x21#8
  | .trapPuts => schemaTrap 0x22#8
  | .trapIn => schemaTrap 0x23#8
  | .trapPutsp => schemaTrap 0x24#8
  | .trapHalt => schemaTrap 0x25#8
  | .rti => [⟨.op, 4, 0b1000#16⟩, ⟨.pad, 12, 0#16⟩]
  | .reserved => []

/-- R90: the sum of a schema's widths, which must be 16. -/
def schemaWidth (fs : List SchemaField) : Nat := (fs.map (·.width)).sum

/-- R90: "Packing a field of width `s` with value `v` appends the `s` low bits of `v` below the bits already written". -/
def packField (acc : Word) (f : SchemaField) : Word :=
  (acc <<< f.width) ||| BitVec.ofNat 16 (f.value.toNat % 2 ^ f.width)

/-- R90: the fields packed from the most significant bit downward. -/
def pack (fs : List SchemaField) : Word := fs.foldl packField 0#16

/-- The Encoder (R90 to R95): operand checks, the width check, then packing. -/
def encode (i : Instr) : Except EncodeError Word :=
  if i.operandsInRange = false then .error .invalidOperand
  else if schemaWidth (schema i) ≠ 16 then .error .malformedInstruction
  else .ok (pack (schema i))

/-- The instruction word a numbered word of the opcode table stands for: one 16-bit Word (R70), whose bit numbers are
the table's own. -/
def tableWord (nbits w : Nat) : Word := BitVec.ofNat 16 (w % 2 ^ nbits)

/-- The instruction the decoder reads from a word numbered as `spec/opcode_table.json` numbers it. -/
def decodeTableWord (nbits w : Nat) : Option Instr :=
  match decode (tableWord nbits w) with
  | .ok i => some i
  | .error _ => none

end Sys2Proof
end

