-- ==== Sys2Proof/Config.lean ====
section
/-! DEFINITION. The open parameters of R9: what the spec leaves to the implementation. `OUT_CELL` is a constant with no
body; `REG_RESET`, `CC_RESET` and `PC_RESET` are the fields of `ResetParams`, an argument of reset; `IMAGE_BYTE_ORDER`
is an argument of the image loader. -/

namespace Sys2Proof

/-- `OUT_CELL` (R9, R57, D9): the address of the "fixed memory cell" trap OUT reads. Free: nothing fixes its value
(log 5). -/
opaque Config.outCell : Word

/-- `CC_RESET` (R30, D6): which condition flag, if any, is true after reset. -/
inductive CcReset where
  | none | n | z | p
  deriving DecidableEq, Repr

/-- The values reset leaves open (R9, R23, R30, R38, R260). A claim about reset is made for every value of these. -/
structure ResetParams where
  /-- `REG_RESET` (R23, D5). -/
  regs : Vector Word 8
  /-- `CC_RESET` (R30, D6). -/
  cc : CcReset
  /-- `PC_RESET` (R260, D7). -/
  pc : Word
  /-- IR after reset: "unspecified; written before every use" (R260). -/
  ir : Word
  /-- FPC after reset: "unspecified; written before every use" (R260). -/
  fpc : Word
  deriving DecidableEq, Repr

/-- DESIGN CHOICE (log 1, log 2, log 3, log 4; unsafe): the values `State.reset` names where the spec gives none. -/
def Config.namedReset : ResetParams where
  regs := #v[0#16, 0#16, 0#16, 0#16, 0#16, 0#16, 0#16, 0#16]
  cc := .none
  pc := 0#16
  ir := 0#16
  fpc := 0#16

/-- `IMAGE_BYTE_ORDER` (R59, D18): the order of the two bytes of a word in an image file. -/
inductive ByteOrder where
  | big | little
  deriving DecidableEq, Repr

end Sys2Proof
end

