-- ==== Sys2Proof/Machine/State.lean ====
section
/-! DEFINITION. Everything a step reads or writes (R20 to R38, R122 to R127, R266), the reasons the machine can stop,
and the state after reset (R260). -/

namespace Sys2Proof.Machine

/-- The three condition flags N, Z, P (R27). "mutually exclusive" is an invariant (R28), not part of the type. -/
structure Flags where
  n : Bool
  z : Bool
  p : Bool
  deriving DecidableEq, Repr

/-- STATUS, the run state of the core (R32). -/
inductive Status where
  | running | halted | faulted | stopped
  deriving DecidableEq, Repr

/-- The two synchronous errors (R230): "names, not numbers". -/
inductive ErrorKind where
  | illegalInstruction | unsupportedTrap
  deriving DecidableEq, Repr

/-- ERR, the error record (R33): the kind, the address the failing word was fetched from and the raw word. -/
structure ErrorRecord where
  kind : ErrorKind
  pc : Word
  word : Word
  deriving DecidableEq, Repr

/-- The service inside which a step holds (R122, R124, R125). For PUTS and PUTSP, `n` is the scan count of R208 and
R210. DESIGN CHOICE (log 8, log 9). -/
inductive Hold where
  | getc
  | inEcho
  | puts (n : Word)
  | putsp (n : Word)
  deriving DecidableEq, Repr

/-- One word of memory at an address: the unit of this word-addressed memory (R50, R54; log 7). -/
abbrev Cell := Nat × Word

/-- MemoryImage (R50): the words that differ from the reset value, addresses strictly rising (log 7). -/
abbrev Memory := List Cell

/-- The whole state of the machine. -/
structure State where
  /-- R0..R7 (R20). -/
  regs : Vector Word 8
  /-- The program counter (R24). -/
  pc : Word
  /-- The condition flags (R27). -/
  cc : Flags
  /-- MemoryImage (R35, R50). -/
  mem : Memory
  /-- STATUS (R32). -/
  status : Status
  /-- ERR (R33): "valid when STATUS is Faulted". -/
  err : Option ErrorRecord
  /-- The input stream, its front first (R36). -/
  input : List Byte
  /-- The output stream, its oldest character first (R37). -/
  output : List Byte
  /-- IR, the word fetched in this step (R38). -/
  ir : Word
  /-- FPC, the address `ir` was fetched from (R38). -/
  fpc : Word
  /-- The service the current step holds in, if it holds (R122). -/
  hold : Option Hold
  /-- The host's stop request (R127). When it is set, kept and cleared, reset included, is DESIGN CHOICE (log 11). -/
  stopRequest : Bool
  /-- An image has been loaded since reset (R266, R267). -/
  loaded : Bool
  deriving DecidableEq, Repr

/-- Faults of the model. No step raises one: the two errors of the core are next states (R122, R233), and "No other
synchronous exception exists" (R235). -/
inductive Fault where
  /-- ImageLoadError (R264). Raised by the host's file load (`hostAct`) only, never by a step: "load fails cleanly before
  any execution starts". The spec's own failure, so safe. -/
  | imageLoadError
  deriving DecidableEq, Repr

/-- Refusals of the model. No instruction of this model is refused; the others answer host actions the spec does not
allow. -/
inductive Refusal where
  /-- An instruction with no meaning yet. Raised by `exec`'s arms only; no arm raises it. Safe. -/
  | notModelled (mnemonic : String)
  /-- Reset while Running. Raised by `hostAct`; "The host never writes a register, a flag, the PC or memory while STATUS
  is Running" (R126; log 12). Safe. -/
  | resetWhileRunning
  /-- A load while not Stopped, or a second load. Raised by `hostAct` (R262, R267, U14; log 12). Safe. -/
  | loadNotAllowed
  /-- A start while not Stopped, or with no image loaded. Raised by `hostAct` (R126, U12; log 12). Safe. -/
  | startNotAllowed
  /-- A resume while not Faulted. Raised by `hostAct` (R126, R239; log 12). Safe. -/
  | resumeNotAllowed
  deriving DecidableEq, Repr

/-- R30: the flags a value of `CC_RESET` stands for. -/
def Flags.ofReset : CcReset → Flags
  | .none => ⟨false, false, false⟩
  | .n => ⟨true, false, false⟩
  | .z => ⟨false, true, false⟩
  | .p => ⟨false, false, true⟩

/-- R260: the state after reset, for every value of what reset leaves open. Its table gives the stop request no value: that
reset clears a request that still stands, honoured before or not, is DESIGN CHOICE (log 11; unsafe). That no image counts
as loaded is DEDUCED from R267 (log 12). "no step is in progress" (R32), so none holds. -/
def State.resetWith (p : ResetParams) : State where
  regs := p.regs
  pc := p.pc
  cc := Flags.ofReset p.cc
  mem := []
  status := .stopped
  err := none
  input := []
  output := []
  ir := p.ir
  fpc := p.fpc
  hold := none
  stopRequest := false
  loaded := false

/-- R260 at the values the model names for what the spec leaves open (DESIGN CHOICE, log 1 to log 4; unsafe). -/
def State.reset : State := State.resetWith Config.namedReset

end Sys2Proof.Machine
end

