-- ==== Sys2Proof/Machine/Ops.lean ====
section
/-! DEFINITION. The named operations every meaning is written with: memory (R50 to R53), registers and PC (R14), the
streams (R36, R37), halting (R212), and taking an error and returning from one (R230 to R233, R239). -/

namespace Sys2Proof.Machine

/-- What an unlisted address reads as: the spec's reset value of every word (R35, R260). -/
def Memory.unlisted : Word := 0#16

/-- The word stored at address `a` (R52). -/
def Memory.read : Memory → Nat → Word
  | [], _ => Memory.unlisted
  | (k, v) :: rest, a => if k = a then v else Memory.read rest a

/-- R53: the memory with `v` at address `a` and every other address as before, kept in canonical form: a word equal to
what an unlisted address reads as is not listed. -/
def Memory.write : Memory → Nat → Word → Memory
  | [], a, v => if v = Memory.unlisted then [] else [(a, v)]
  | (k, w) :: rest, a, v =>
    if a < k then
      if v = Memory.unlisted then (k, w) :: rest else (a, v) :: (k, w) :: rest
    else if a = k then
      if v = Memory.unlisted then rest else (a, v) :: rest
    else (k, w) :: Memory.write rest a v

/-- Every address of the list is at least `lo`, they rise strictly, each is one of the 65536 addresses (R50), and no
listed word equals what an unlisted address reads as. -/
def Memory.wfFrom (lo : Nat) : Memory → Bool
  | [] => true
  | (k, v) :: rest => decide (lo ≤ k) && decide (k < 65536) && decide (v ≠ Memory.unlisted) && Memory.wfFrom (k + 1) rest

/-- The canonical form of memory. -/
def Memory.wf (m : Memory) : Bool := Memory.wfFrom 0 m

/-- `x[i]` (R14). -/
def State.reg (s : State) (r : RegNum) : Word := s.regs[r]

/-- `x[i] <- v` (R14). Every register is writable, none is hard-wired (R20). -/
def State.setReg (s : State) (r : RegNum) (v : Word) : State := { s with regs := s.regs.set r v }

/-- `pc <- v` (R14). -/
def State.setPc (s : State) (v : Word) : State := { s with pc := v }

/-- `MemRead(a)` (R52): no side effect. -/
def State.memRead (s : State) (a : Word) : Word := s.mem.read a.toNat

/-- `MemWrite(a, v)` (R53). -/
def State.memWrite (s : State) (a v : Word) : State := { s with mem := s.mem.write a.toNat v }

/-- `Out(c)` for each character of `cs` in turn (R37). -/
def State.emit (s : State) (cs : List Byte) : State := { s with output := s.output ++ cs }

/-- The input stream without its first character (R36). -/
def State.dropInput (s : State) : State := { s with input := s.input.tail }

/-- The step holds in service `h` (R122), or no longer holds. -/
def State.setHold (s : State) (h : Option Hold) : State := { s with hold := h }

/-- `halt` (R14, R212): STATUS <- Halted, nothing else. -/
def State.halt (s : State) : State := { s with status := .halted }

/-- Taking an error (R230, R233, R238): STATUS is Faulted, ERR records the kind, FPC and IR; nothing else changes, and
control goes nowhere in memory. -/
def State.raiseError (s : State) (k : ErrorKind) : State :=
  { s with status := .faulted, err := some ⟨k, s.fpc, s.ir⟩ }

/-- The return from an error, the host's resume (R126, R239): "STATUS Faulted -> Running, nothing else changed". -/
def State.resumeAfterError (s : State) : State := { s with status := .running }

/-- Bits [7:0] of a word (R204, R208, R210). -/
def lowByte (w : Word) : Byte := w.extractLsb' 0 8

/-- Bits [15:8] of a word (R210). -/
def highByte (w : Word) : Byte := w.extractLsb' 8 8

/-- The address trap OUT reads (R57, R204). -/
def outCellAddress : Word := Config.outCell

end Sys2Proof.Machine
end

