-- ==== Sys2Proof/Machine/Flags.lean ====
section
/-! DEFINITION. The one flag computation, `setcc` (R27), and the one reader of the flags, BR's test (R161). -/

namespace Sys2Proof.Machine

/-- R27: `N <- (v[15] = 1)`; `Z <- (v = 0x0000)`; `P <- (v[15] = 0 and v != 0x0000)`. -/
def flagsOf (v : Word) : Flags where
  n := v.getLsbD 15
  z := decide (v = 0#16)
  p := !v.getLsbD 15 && decide (v ≠ 0#16)

/-- `setcc(v)` (R27): writes all three flags. -/
def State.setcc (s : State) (v : Word) : State := { s with cc := flagsOf v }

/-- `x[dr] <- v; setcc(v)`: the flags come from the value written to the destination (R29, R149). -/
def State.writeResult (s : State) (dr : RegNum) (v : Word) : State := (s.setReg dr v).setcc v

/-- R161: BR is taken when all three request bits are zero, or a requested flag is true. -/
def branchTaken (n z p : Bool) (c : Flags) : Bool :=
  (!n && !z && !p) || (n && c.n) || (z && c.z) || (p && c.p)

end Sys2Proof.Machine
end

