-- ==== Sys2Proof/Machine/Operands.lean ====
section
/-! DEFINITION. The ALU (R140) and the effective addresses (R141, R180). In each, `s.pc` is the already incremented
program counter (R24, R120). -/

namespace Sys2Proof.Machine

/-- R140: `add(a, b) = (a + b) mod 65536`; also the adder of every address (R141). -/
def aluAdd (a b : Word) : Word := a + b

/-- R140: bitwise AND. -/
def aluAnd (a b : Word) : Word := a &&& b

/-- R140: `not(a) = a XOR 0xFFFF`. -/
def aluNot (a : Word) : Word := a ^^^ 0xFFFF#16

/-- PC-relative (R180): `ea = pc + off`. -/
def pcRelative (s : State) (off : Word) : Word := aluAdd s.pc off

/-- Base + offset (R180): `ea = x[base] + off`. The base register is not modified. -/
def baseOffset (s : State) (base : RegNum) (off : Word) : Word := aluAdd (s.reg base) off

/-- Indirect (R180): `ptr = pc + off`; `ea = MemRead(ptr)`. -/
def indirect (s : State) (off : Word) : Word := s.memRead (pcRelative s off)

end Sys2Proof.Machine
end

