-- ==== Sys2Proof/Machine/Control.lean ====
section
/-! DEFINITION. The control transfers BR, JMP, RET, JSR, JSRR (42_control.md). -/

namespace Sys2Proof.Machine

/-- BR (R161): `if taken then pc <- pc + off`. -/
def execBr (n z p : Bool) (off : Word) (s : State) : Host.Outcome State Fault Refusal :=
  if branchTaken n z p s.cc then .next (s.setPc (pcRelative s off)) else .next s

/-- `pc <- x[base]` (R163). -/
def jumpTo (base : RegNum) (s : State) : State := s.setPc (s.reg base)

/-- JMP (R163). -/
def execJmp (base : RegNum) (s : State) : Host.Outcome State Fault Refusal := .next (jumpTo base s)

/-- RET: "RET is JMP with base register R7 by convention — no distinct opcode" (R163, R103). -/
def execRet (s : State) : Host.Outcome State Fault Refusal := .next (jumpTo 7 s)

/-- `x[7] <- pc`: the link JSR and JSRR leave (R21, R166). -/
def saveLink (s : State) : State := s.setReg 7 s.pc

/-- JSR (R164): `x[7] <- pc; pc <- pc + off`. -/
def execJsr (off : Word) (s : State) : Host.Outcome State Fault Refusal :=
  let linked := saveLink s
  .next (linked.setPc (pcRelative linked off))

/-- JSRR (R165): `x[7] <- pc; pc <- x[base]`, in that order: with base R7 the jump reads the R7 just written (D17). -/
def execJsrr (base : RegNum) (s : State) : Host.Outcome State Fault Refusal :=
  .next (jumpTo base (saveLink s))

end Sys2Proof.Machine
end

