-- ==== Sys2Proof/Machine/LoadStore.lean ====
section
/-! DEFINITION. Loads, stores and LEA (43_load_store.md). -/

namespace Sys2Proof.Machine

/-- `v <- MemRead(ea); x[dr] <- v; setcc(v)`: what the three loads share (R181 to R183). -/
def loadFrom (dr : RegNum) (ea : Word) (s : State) : State := s.writeResult dr (s.memRead ea)

/-- `MemWrite(ea, x[sr])`: what the three stores share (R185 to R187). -/
def storeTo (sr : RegNum) (ea : Word) (s : State) : State := s.memWrite ea (s.reg sr)

/-- LD (R181): `ea <- pc + off`. -/
def execLd (dr : RegNum) (off : Word) (s : State) : Host.Outcome State Fault Refusal :=
  .next (loadFrom dr (pcRelative s off) s)

/-- LDR (R182): `ea <- x[base] + off`, formed from the old base when DR is the base. -/
def execLdr (dr base : RegNum) (off : Word) (s : State) : Host.Outcome State Fault Refusal :=
  .next (loadFrom dr (baseOffset s base off) s)

/-- LDI (R183): `ptr <- pc + off; ea <- MemRead(ptr)`; flags from the loaded word (D8). -/
def execLdi (dr : RegNum) (off : Word) (s : State) : Host.Outcome State Fault Refusal :=
  .next (loadFrom dr (indirect s off) s)

/-- LEA (R184): `v <- pc + off; x[dr] <- v; setcc(v)`; no memory access. -/
def execLea (dr : RegNum) (off : Word) (s : State) : Host.Outcome State Fault Refusal :=
  .next (s.writeResult dr (pcRelative s off))

/-- ST (R185): `ea <- pc + off`. -/
def execSt (sr : RegNum) (off : Word) (s : State) : Host.Outcome State Fault Refusal :=
  .next (storeTo sr (pcRelative s off) s)

/-- STR (R186): `ea <- x[base] + off`. -/
def execStr (sr base : RegNum) (off : Word) (s : State) : Host.Outcome State Fault Refusal :=
  .next (storeTo sr (baseOffset s base off) s)

/-- STI (R187): `ptr <- pc + off; ea <- MemRead(ptr)`. -/
def execSti (sr : RegNum) (off : Word) (s : State) : Host.Outcome State Fault Refusal :=
  .next (storeTo sr (indirect s off) s)

end Sys2Proof.Machine
end

