-- ==== Sys2Proof/Machine/Operate.lean ====
section
/-! DEFINITION. The operate instructions ADD, AND, NOT (41_operate.md). -/

namespace Sys2Proof.Machine

/-- ADD, register mode (R142): `v <- add(x[sr1], x[sr2]); x[dr] <- v; setcc(v)`. -/
def execAddReg (dr sr1 sr2 : RegNum) (s : State) : Host.Outcome State Fault Refusal :=
  .next (s.writeResult dr (aluAdd (s.reg sr1) (s.reg sr2)))

/-- ADD, immediate mode (R143): `v <- add(x[sr1], imm); x[dr] <- v; setcc(v)`. -/
def execAddImm (dr sr1 : RegNum) (imm : Word) (s : State) : Host.Outcome State Fault Refusal :=
  .next (s.writeResult dr (aluAdd (s.reg sr1) imm))

/-- AND, register mode (R144): `v <- and(x[sr1], x[sr2]); x[dr] <- v; setcc(v)`. -/
def execAndReg (dr sr1 sr2 : RegNum) (s : State) : Host.Outcome State Fault Refusal :=
  .next (s.writeResult dr (aluAnd (s.reg sr1) (s.reg sr2)))

/-- AND, immediate mode (R145): `v <- and(x[sr1], imm); x[dr] <- v; setcc(v)`. -/
def execAndImm (dr sr1 : RegNum) (imm : Word) (s : State) : Host.Outcome State Fault Refusal :=
  .next (s.writeResult dr (aluAnd (s.reg sr1) imm))

/-- NOT (R146): `v <- not(x[sr]); x[dr] <- v; setcc(v)`. -/
def execNot (dr sr : RegNum) (s : State) : Host.Outcome State Fault Refusal :=
  .next (s.writeResult dr (aluNot (s.reg sr)))

end Sys2Proof.Machine
end

