-- ==== Sys2Proof/Machine/Services.lean ====
section
/-! DEFINITION. The six built-in services of the TrapDispatcher (R200 to R212), the dispatch on the vector (R200), and
what a step that holds does next (R124, R125). -/

namespace Sys2Proof.Machine

/-- The character `c` taken from the input stream enters R0, zero-extended, and the flags follow it (R203, R206, D10);
the step no longer holds. -/
def acceptChar (c : Byte) (s : State) : State :=
  ((s.dropInput).writeResult 0 (zext c)).setHold none

/-- GETC (R203). With the input stream empty the step holds (R124). -/
def serviceGetc (s : State) : State :=
  match s.input with
  | [] => s.setHold (some .getc)
  | c :: _ => acceptChar c s

/-- IN (R206): as GETC, and the character is echoed to the output stream. -/
def serviceIn (s : State) : State :=
  match s.input with
  | [] => s.setHold (some .inEcho)
  | c :: _ => (acceptChar c s).emit [c]

/-- OUT (R204): `v <- MemRead(OUT_CELL); Out(v[7:0])`. -/
def serviceOut (s : State) : State := s.emit [lowByte (s.memRead outCellAddress)]

/-- The address of word `n` of the string R0 points at: `a + n` (R208, R210). -/
def stringAddress (s : State) (n : Word) : Word := aluAdd (s.reg 0) n

/-- The number of words from address `a` to the first zero word, looking at `fuel` words. -/
def scanString (s : State) (a : Word) : Nat → Option Nat
  | 0 => none
  | fuel + 1 => if s.memRead a = 0#16 then some 0 else (scanString s (aluAdd a 1#16) fuel).map (· + 1)

/-- The string length `n` of R208 and R210. The scan wraps (R51) and there are 65536 words, so a zero word is found
within 65536 words or nowhere (R125). -/
def stringLength (s : State) : Option Nat := scanString s (s.reg 0) 65536

/-- R208: the character a word of a PUTS string writes. -/
def putsChars (w : Word) : List Byte := [lowByte w]

/-- R210: the characters a word of a packed string writes, low byte first, a zero high byte not written (D12). -/
def putspChars (w : Word) : List Byte :=
  if highByte w = 0#8 then [lowByte w] else [lowByte w, highByte w]

/-- The characters of the first `n` words of the string at R0. -/
def stringChars (chars : Word → List Byte) (s : State) (n : Nat) : List Byte :=
  (List.range n).flatMap fun i => chars (s.memRead (stringAddress s (BitVec.ofNat 16 i)))

/-- The end of a string service of length `n`: `pc <- pc + n` (D11); the step no longer holds. -/
def finishString (n : Word) (s : State) : State := (s.setPc (aluAdd s.pc n)).setHold none

/-- What PUTS and PUTSP share: write the string and advance the PC by its length (R208, R210). With no zero word in
memory the scan never ends (R125): the step holds, from its first word on. -/
def serviceString (chars : Word → List Byte) (h : Word → Hold) (s : State) : State :=
  match stringLength s with
  | some n => finishString (BitVec.ofNat 16 n) (s.emit (stringChars chars s n))
  | none => s.setHold (some (h 0#16))

/-- PUTS (R208). -/
def servicePuts (s : State) : State := serviceString putsChars .puts s

/-- PUTSP (R210). -/
def servicePutsp (s : State) : State := serviceString putspChars .putsp s

/-- One turn of the loop of R208 and R210 at count `n`, for a step that holds in it. -/
def continueString (chars : Word → List Byte) (h : Word → Hold) (n : Word) (s : State) : State :=
  let w := s.memRead (stringAddress s n)
  if w = 0#16 then finishString n s
  else (s.emit (chars w)).setHold (some (h (aluAdd n 1#16)))

/-- HALT (R212): STATUS <- Halted, nothing else. -/
def serviceHalt (s : State) : State := s.halt

/-- The TrapDispatcher (R200, R202): the service of a vector, or UnsupportedTrap (R232). -/
def dispatchTrap (vect : Byte) (s : State) : State :=
  match vect with
  | 0x20#8 => serviceGetc s
  | 0x21#8 => serviceOut s
  | 0x22#8 => servicePuts s
  | 0x23#8 => serviceIn s
  | 0x24#8 => servicePutsp s
  | 0x25#8 => serviceHalt s
  | _ => s.raiseError .unsupportedTrap

/-- What a step that holds in service `h` does next: complete once a character is there (R124), scan on (R125). -/
def continueHold (h : Hold) (s : State) : State :=
  match h with
  | .getc => serviceGetc s
  | .inEcho => serviceIn s
  | .puts n => continueString putsChars .puts n s
  | .putsp n => continueString putspChars .putsp n s

end Sys2Proof.Machine
end

