-- ==== Sys2Proof/Machine/Traps.lean ====
section
/-! DEFINITION. TRAP, its six services as rows of the table, RTI, and the reserved opcode (44_trap_rti.md,
60_exceptions.md). TRAP writes no register of its own (R201). -/

namespace Sys2Proof.Machine

/-- TRAP (R200): the service of the vector runs to completion inside this step. -/
def execTrap (vect : Byte) (s : State) : Host.Outcome State Fault Refusal := .next (dispatchTrap vect s)

/-- TRAP.GETC (R203). -/
def execTrapGetc (s : State) : Host.Outcome State Fault Refusal := .next (serviceGetc s)

/-- TRAP.OUT (R204). -/
def execTrapOut (s : State) : Host.Outcome State Fault Refusal := .next (serviceOut s)

/-- TRAP.PUTS (R208). -/
def execTrapPuts (s : State) : Host.Outcome State Fault Refusal := .next (servicePuts s)

/-- TRAP.IN (R206). -/
def execTrapIn (s : State) : Host.Outcome State Fault Refusal := .next (serviceIn s)

/-- TRAP.PUTSP (R210). -/
def execTrapPutsp (s : State) : Host.Outcome State Fault Refusal := .next (servicePutsp s)

/-- TRAP.HALT (R212). -/
def execTrapHalt (s : State) : Host.Outcome State Fault Refusal := .next (serviceHalt s)

/-- RTI (R214): "no-op (interrupt return is not modeled)". -/
def execRti (s : State) : Host.Outcome State Fault Refusal := .next s

/-- The reserved opcode (R82, R231): IllegalInstruction. -/
def execReserved (s : State) : Host.Outcome State Fault Refusal := .next (s.raiseError .illegalInstruction)

end Sys2Proof.Machine
end

