-- ==== Sys2Proof/Machine/Dispatch.lean ====
section
/-! DEFINITION. `execute(d)`: one arm per constructor (R130). -/

namespace Sys2Proof.Machine

/-- R130: "an exhaustive tagged variant with a single match in the Executor". -/
def exec (i : Instr) (s : State) : Host.Outcome State Fault Refusal :=
  match i with
  | .br n z p off => Sys2Proof.Machine.execBr n z p off s
  | .addReg dr sr1 sr2 => Sys2Proof.Machine.execAddReg dr sr1 sr2 s
  | .addImm dr sr1 imm => Sys2Proof.Machine.execAddImm dr sr1 imm s
  | .ld dr off => Sys2Proof.Machine.execLd dr off s
  | .st sr off => Sys2Proof.Machine.execSt sr off s
  | .jsr off => Sys2Proof.Machine.execJsr off s
  | .jsrr base => Sys2Proof.Machine.execJsrr base s
  | .andReg dr sr1 sr2 => Sys2Proof.Machine.execAndReg dr sr1 sr2 s
  | .andImm dr sr1 imm => Sys2Proof.Machine.execAndImm dr sr1 imm s
  | .ldr dr base off => Sys2Proof.Machine.execLdr dr base off s
  | .str sr base off => Sys2Proof.Machine.execStr sr base off s
  | .rti => Sys2Proof.Machine.execRti s
  | .not dr sr => Sys2Proof.Machine.execNot dr sr s
  | .ldi dr off => Sys2Proof.Machine.execLdi dr off s
  | .sti sr off => Sys2Proof.Machine.execSti sr off s
  | .jmp base => Sys2Proof.Machine.execJmp base s
  | .lea dr off => Sys2Proof.Machine.execLea dr off s
  | .trap vect => Sys2Proof.Machine.execTrap vect s
  | .reserved => Sys2Proof.Machine.execReserved s
  | .ret => Sys2Proof.Machine.execRet s
  | .trapGetc => Sys2Proof.Machine.execTrapGetc s
  | .trapOut => Sys2Proof.Machine.execTrapOut s
  | .trapPuts => Sys2Proof.Machine.execTrapPuts s
  | .trapIn => Sys2Proof.Machine.execTrapIn s
  | .trapPutsp => Sys2Proof.Machine.execTrapPutsp s
  | .trapHalt => Sys2Proof.Machine.execTrapHalt s

end Sys2Proof.Machine
end

