-- ==== Sys2Proof/Machine/Cycle.lean ====
section
/-! DEFINITION. The fetch-decode-execute cycle (40_step_cycle.md). -/

namespace Sys2Proof.Machine

/-- Fetch and increment (R120): `FPC <- pc; IR <- MemRead(pc); pc <- pc + 1`. -/
def fetch (s : State) : State := { s with fpc := s.pc, ir := s.memRead s.pc, pc := aluAdd s.pc 1#16 }

/-- Decode and execute (R120), after the fetch; a decode failure raises IllegalInstruction (R231). -/
def decodeAndExecute (s : State) : Host.Outcome State Fault Refusal :=
  match decode s.ir with
  | .ok i => exec i s
  | .error .illegalInstruction => .next (s.raiseError .illegalInstruction)

/-- The check-point's effect (R127): STATUS <- Stopped, every other piece of state untouched. -/
def honourStop (s : State) : State := { s with status := .stopped }

/-- One step (R120 to R127). Not Running: nothing happens (R123). Holding: the step goes on, and no stop request
interrupts it (R124, R125, R127). Else the check-point first, then the cycle. -/
def cycle (s : State) : Host.Outcome State Fault Refusal :=
  if s.status ≠ .running then .next s
  else
    match s.hold with
    | some h => .next (continueHold h s)
    | none => if s.stopRequest then .next (honourStop s) else decodeAndExecute (fetch s)

/-- The state with the instruction word `w` (numbered as the opcode table numbers it) at the PC, and the core Running
with nothing in the way of its next fetch: what load and start bring about (log 13). -/
def placeWord (s : State) (w : Word) : State :=
  { s.memWrite s.pc w with status := .running, hold := none, stopRequest := false }

end Sys2Proof.Machine
end

