-- ==== Sys2Proof/Machine/Step.lean ====
section
/-! DEFINITION. The machine's step, and the state that runs a given word next. -/

namespace Sys2Proof.Machine

/-- One step of the machine (R120 to R127): `cycle`. -/
def step : State → Host.Outcome State Fault Refusal := cycle

/-- `s` with the instruction word `w` of the opcode table where `step` fetches next (log 13). -/
def State.withFetchWord (s : State) (nbits w : Nat) : State := placeWord s (tableWord nbits w)

end Sys2Proof.Machine
end

