-- ==== Sys2Proof/Machine/Assembler.lean ====
section
/-! DEFINITION. The toolchain's side of the encoder, software and not hardware (R6): the front-end contract (R100), operand
shapes and operand checks (R93 to R95, R101), BR's condition letters (R102), labels (R104), directives (R105 to R109)
and the image (R110). Lexing, literal parsing and the symbol table are external (R7, R100): a statement arrives as its
mnemonic or directive and its operand tokens, labels as numbers (log 18). -/

namespace Sys2Proof.Machine

/-- What the external lexer says an operand token is (R94, R104, R108). -/
inductive OperandToken where
  /-- A register name (R100). -/
  | register (n : Nat)
  /-- A decimal or hexadecimal literal (R100). -/
  | literal (v : Int)
  /-- A label, by its number in the symbol table (R104). -/
  | label (id : Nat)
  /-- The string of a `.STRINGZ` (R108). -/
  | string (chars : List Byte)
  /-- Any other token: no opcode and no directive expects it. -/
  | other
  deriving DecidableEq, Repr

/-- A letter of a BR mnemonic (R102). -/
inductive ConditionLetter where
  | n | z | p
  deriving DecidableEq, Repr

/-- R101: "The document names these mnemonics"; BR with its condition letters (R102; their order and repetition: log 18). The names of the six trap services
are not among them (R103). -/
inductive Mnemonic where
  | add | and | not
  | br (letters : List ConditionLetter)
  | jmp | ret | jsr | jsrr | ld | ldi | ldr | lea | st | sti | str | trap | rti
  deriving DecidableEq, Repr

/-- The five directives (R6, R105 to R109). -/
inductive Directive where
  /-- `.ORIG` (R105). -/
  | orig
  /-- `.FILL` (R106). -/
  | fill
  /-- `.BLKW` (R107). -/
  | blkw
  /-- `.STRINGZ` (R108). -/
  | stringz
  /-- `.END` (R109). -/
  | endUnit
  deriving DecidableEq, Repr

/-- The first component of a statement's tuple: `mnemonic-or-directive` (R100). -/
inductive AsmHead where
  | op (m : Mnemonic)
  | directive (d : Directive)
  deriving DecidableEq, Repr

/-- R100: a tuple `(mnemonic-or-directive, operand-tokens[])`. -/
structure AsmStatement where
  head : AsmHead
  operands : List OperandToken
  deriving DecidableEq, Repr

/-- R100: the `label → address` map: label number to word-offset from the origin (R104). External; the encoder reads it
only. -/
abbrev SymbolTable := List (Nat × Nat)

/-! ## Operand checks -/

/-- R93: a signed operand must lie in the range of its field, `k` bits wide (R76). -/
def signedOperand (k : Nat) (v : Int) : Except EncodeError Word :=
  if -(2 ^ (k - 1) : Int) ≤ v ∧ v ≤ 2 ^ (k - 1) - 1 then .ok (BitVec.ofInt 16 v) else .error .invalidOperand

/-- R93: "A register operand must be 0..7." -/
def registerOperand (n : Nat) : Except EncodeError RegNum :=
  if h : n < 8 then .ok ⟨n, h⟩ else .error .invalidOperand

/-- R93: a trap vector must be in 0..255. -/
def vectorOperand (v : Int) : Except EncodeError Byte :=
  if 0 ≤ v ∧ v ≤ 255 then .ok (BitVec.ofInt 8 v) else .error .invalidOperand

/-- R104: the offset of an instruction at word-offset `a` whose label resolves to `t` is `t - (a + 1)`, in its field's
range. -/
def labelOffset (k : Nat) (a t : Nat) : Except EncodeError Word := signedOperand k ((t : Int) - ((a : Int) + 1))

/-- R100: the resolved word-offset of a label. -/
def lookupLabel (symbols : SymbolTable) (label : Nat) : Except EncodeError Nat :=
  match symbols.lookup label with
  | some t => .ok t
  | none => .error .invalidOperand

/-! ## One operand, read as the shape expects it (R95: a token of any other kind is `InvalidOperand`) -/

/-- A register operand: DR, SR, SR1, BaseR (R93, R101). -/
def OperandToken.asRegister : OperandToken → Except EncodeError RegNum
  | .register n => registerOperand n
  | .literal _ | .label _ | .string _ | .other => .error .invalidOperand

/-- A signed literal operand of a field `k` bits wide: imm5, off6 (R93, R101). -/
def OperandToken.asSigned (k : Nat) : OperandToken → Except EncodeError Word
  | .literal v => signedOperand k v
  | .register _ | .label _ | .string _ | .other => .error .invalidOperand

/-- A trap vector operand (R93, R101). -/
def OperandToken.asVector : OperandToken → Except EncodeError Byte
  | .literal v => vectorOperand v
  | .register _ | .label _ | .string _ | .other => .error .invalidOperand

/-- A label operand of an instruction at word-offset `a`, as the offset of a field `k` bits wide (R101, R104). -/
def OperandToken.asOffset (k : Nat) (symbols : SymbolTable) (a : Nat) : OperandToken → Except EncodeError Word
  | .label id => (lookupLabel symbols id).bind (labelOffset k a)
  | .register _ | .literal _ | .string _ | .other => .error .invalidOperand

/-- The operand of `.ORIG`: an address (R105; its range is log 18's choice). -/
def OperandToken.asAddress : OperandToken → Except EncodeError Word
  | .literal v => if 0 ≤ v ∧ v ≤ 65535 then .ok (BitVec.ofInt 16 v) else .error .invalidOperand
  | .register _ | .label _ | .string _ | .other => .error .invalidOperand

/-- The operand of `.FILL`: a literal, modulo 65536 (R106). A label is refused (U17; log 18). -/
def OperandToken.asFill : OperandToken → Except EncodeError Word
  | .literal v => .ok (BitVec.ofInt 16 v)
  | .register _ | .label _ | .string _ | .other => .error .invalidOperand

/-- The operand of `.BLKW`: a count (R107). -/
def OperandToken.asCount : OperandToken → Except EncodeError Nat
  | .literal v => if 0 ≤ v then .ok v.toNat else .error .invalidOperand
  | .register _ | .label _ | .string _ | .other => .error .invalidOperand

/-- The operand of `.STRINGZ`: a string (R108). -/
def OperandToken.asString : OperandToken → Except EncodeError (List Byte)
  | .string chars => .ok chars
  | .register _ | .literal _ | .label _ | .other => .error .invalidOperand

/-! ## Instructions -/

/-- R94: the form of an ADD is a parse-time decision over its last operand token. -/
def assembleAdd (dr sr1 : RegNum) : OperandToken → Except EncodeError Instr
  | .register n => (registerOperand n).map (.addReg dr sr1 ·)
  | .literal v => (signedOperand 5 v).map (.addImm dr sr1 ·)
  | .label _ | .string _ | .other => .error .invalidOperand

/-- R94: the form of an AND is a parse-time decision over its last operand token. -/
def assembleAnd (dr sr1 : RegNum) : OperandToken → Except EncodeError Instr
  | .register n => (registerOperand n).map (.andReg dr sr1 ·)
  | .literal v => (signedOperand 5 v).map (.andImm dr sr1 ·)
  | .label _ | .string _ | .other => .error .invalidOperand

/-- R102: "each letter setting its bit"; plain `BR` has no letter and encodes n = z = p = 0. R102 lists seven spellings with
letters and R101 writes them in the order n, z, p; that letters in another order or repeated are accepted too, each setting
its bit, is DESIGN CHOICE (log 18; safe). -/
def branchOf (letters : List ConditionLetter) (off : Word) : Instr :=
  .br (letters.contains .n) (letters.contains .z) (letters.contains .p) off

/-- The instruction a mnemonic and its operand tokens stand for, at word-offset `a`: operand order and shapes as R101
gives them; any other number or kind of tokens is `InvalidOperand` (R95). -/
def assembleInstr (symbols : SymbolTable) (a : Nat) (m : Mnemonic) (operands : List OperandToken) :
    Except EncodeError Instr :=
  match m, operands with
  | .add, [d, s, o] => do assembleAdd (← d.asRegister) (← s.asRegister) o
  | .and, [d, s, o] => do assembleAnd (← d.asRegister) (← s.asRegister) o
  | .not, [d, s] => do return .not (← d.asRegister) (← s.asRegister)
  | .br letters, [l] => do return branchOf letters (← l.asOffset 9 symbols a)
  | .jmp, [b] => do return .jmp (← b.asRegister)
  | .ret, [] => .ok .ret
  | .jsr, [l] => do return .jsr (← l.asOffset 11 symbols a)
  | .jsrr, [b] => do return .jsrr (← b.asRegister)
  | .ld, [d, l] => do return .ld (← d.asRegister) (← l.asOffset 9 symbols a)
  | .ldi, [d, l] => do return .ldi (← d.asRegister) (← l.asOffset 9 symbols a)
  | .ldr, [d, b, o] => do return .ldr (← d.asRegister) (← b.asRegister) (← o.asSigned 6)
  | .lea, [d, l] => do return .lea (← d.asRegister) (← l.asOffset 9 symbols a)
  | .st, [r, l] => do return .st (← r.asRegister) (← l.asOffset 9 symbols a)
  | .sti, [r, l] => do return .sti (← r.asRegister) (← l.asOffset 9 symbols a)
  | .str, [r, b, o] => do return .str (← r.asRegister) (← b.asRegister) (← o.asSigned 6)
  | .trap, [v] => do return .trap (← v.asVector)
  | .rti, [] => .ok .rti
  | _, _ => .error .invalidOperand

/-! ## Statements -/

/-- The statement `.STRINGZ` with the string `chars` (R108). -/
def AsmStatement.stringz (chars : List Byte) : AsmStatement := ⟨.directive .stringz, [.string chars]⟩

/-- The statement `.END` (R109). -/
def AsmStatement.endUnit : AsmStatement := ⟨.directive .endUnit, []⟩

/-- The words a directive emits: `.FILL` "places one literal 16-bit value verbatim" (R106); `.BLKW` "reserves *n* words",
each 0x0000 (R107); `.STRINGZ` "emits one word per character of the given string plus a terminating zero word" (R108);
`.END` "emits no word" (R109); a `.ORIG` here is not "the first statement of an assembly unit" (R105) and fails. -/
def emitDirective (d : Directive) (operands : List OperandToken) : Except EncodeError (List Word) :=
  match d, operands with
  | .fill, [v] => v.asFill.map ([·])
  | .blkw, [n] => n.asCount.map (List.replicate · 0#16)
  | .stringz, [t] => t.asString.map (fun chars => chars.map (fun c => (zext c : Word)) ++ [0#16])
  | .endUnit, [] => .ok []
  | .orig, _ | .fill, _ | .blkw, _ | .stringz, _ | .endUnit, _ => .error .invalidOperand

/-- The words a statement at word-offset `a` emits, or why it fails (R90, R95): one word for an instruction. -/
def AsmStatement.emit (symbols : SymbolTable) (a : Nat) (st : AsmStatement) : Except EncodeError (List Word) :=
  match st.head with
  | .op m => do return [← encode (← assembleInstr symbols a m st.operands)]
  | .directive d => emitDirective d st.operands

/-! ## Units -/

/-- What assembling a unit leaves: the origin word, the words emitted so far, and each failed statement, by its place in
the unit, with its error (R95, R110). -/
structure Assembled where
  origin : Word
  words : List Word
  failures : List (Nat × EncodeError)
  deriving DecidableEq, Repr

/-- R95: what one statement, at place `i` of the unit, adds: its words, or its failure, "without corrupting previously
encoded words". Its word-offset is the number of words emitted before it (R104, R110). -/
def Assembled.add (symbols : SymbolTable) (i : Nat) (st : AsmStatement) (r : Assembled) : Assembled :=
  match st.emit symbols r.words.length with
  | .ok ws => { r with words := r.words ++ ws }
  | .error e => { r with failures := r.failures ++ [(i, e)] }

/-- The statements of a unit in order, the first at place `i`, until `.END`, which "terminates the unit" (R109). "assembly
of that single statement fails" (R95): the statements after a failed one are assembled. -/
def assembleAll (symbols : SymbolTable) (i : Nat) : List AsmStatement → Assembled → Assembled
  | [], r => r
  | st :: rest, r => if st = .endUnit then r else assembleAll symbols (i + 1) rest (r.add symbols i st)

/-- R100: "an ordered sequence of tuples `(mnemonic-or-directive, operand-tokens[])` plus a `label → address` map". -/
structure AsmUnit where
  statements : List AsmStatement
  symbols : SymbolTable
  deriving DecidableEq, Repr

/-- A unit assembled. `.ORIG` "must be the first statement of an assembly unit" and gives the origin word (R105); a unit
without it has none, and fails whole (log 18). -/
def AsmUnit.assemble (u : AsmUnit) : Except EncodeError Assembled :=
  match u.statements with
  | ⟨.directive .orig, [t]⟩ :: rest => t.asAddress.map fun origin => assembleAll u.symbols 1 rest ⟨origin, [], []⟩
  | _ => .error .invalidOperand

/-- R110: "first word = origin address", then the words the statements emit, in order. -/
def Assembled.image (r : Assembled) : List Word := r.origin :: r.words

end Sys2Proof.Machine
end

