-- ==== Sys2Proof/Machine/HostControl.lean ====
section
/-! DEFINITION. The host's part: reset, image load, start, stop request, resume, input (R126, R260 to R267). Every
action happens between steps; appending a character is allowed at any time, also while a step holds. -/

namespace Sys2Proof.Machine

/-- What the host can do to the core (R126, R272). -/
inductive HostAction where
  /-- Reset, for whatever values it leaves open (R260). -/
  | reset (p : ResetParams)
  /-- Load "a raw loaded image (origin + word stream)" (R262). -/
  | load (origin : Word) (words : List Word)
  /-- Load an image file: its bytes, or `none` when the file is unreadable (R59, R264). -/
  | loadFile (order : ByteOrder) (file : Option (List Byte))
  /-- Start: STATUS Stopped -> Running (R126). -/
  | start
  /-- Assert the stop request (R126, R127). -/
  | stop
  /-- Resume after an error: STATUS Faulted -> Running (R126, R239). -/
  | resume
  /-- Append one character to the input stream (R36, R126). -/
  | supply (c : Byte)
  deriving DecidableEq, Repr

/-- R262: `MemWrite((origin + k) mod 65536, w_k)` for each word of the image in turn. -/
def Memory.load (m : Memory) (origin : Word) : List Word → Memory
  | [] => m
  | w :: ws => Memory.load (m.write origin.toNat w) (origin + 1#16) ws

/-- R262, R263: the image's words are written and the PC is the origin; R0..R7, the flags, STATUS and the streams stay
(D23). -/
def loadImage (origin : Word) (words : List Word) (s : State) : State :=
  { s with mem := s.mem.load origin words, pc := origin, loaded := true }

/-- The word two bytes of an image file stand for (R59, D18). -/
def wordOfBytes (order : ByteOrder) (first second : Byte) : Word :=
  match order with
  | .big => first ++ second
  | .little => second ++ first

/-- R264: the words of a byte stream; a stream that "ends mid-word" has none. -/
def parseWords (order : ByteOrder) : List Byte → Option (List Word)
  | [] => some []
  | [_] => none
  | a :: b :: rest => (parseWords order rest).map (wordOfBytes order a b :: ·)

/-- R264: origin and data words of an image file; a file with no complete origin word has none. -/
def parseImage (order : ByteOrder) (file : List Byte) : Option (Word × List Word) :=
  match parseWords order file with
  | some (origin :: words) => some (origin, words)
  | _ => none

/-- A load is allowed only while Stopped, and once per reset (R262, R267, U14; log 12). -/
def loadAllowed (s : State) : Bool := decide (s.status = .stopped) && !s.loaded

/-- Start: a Stopped core with an image runs (R126, R266, U12); a stop request honoured before is over (log 11). -/
def startCore (s : State) : State := { s with status := .running, stopRequest := false }

/-- One host action (R126). -/
def hostAct (a : HostAction) (s : State) : Host.Outcome State Fault Refusal :=
  match a with
  | .reset p => if s.status = .running then .refused .resetWhileRunning else .next (State.resetWith p)
  | .load origin words => if loadAllowed s then .next (loadImage origin words s) else .refused .loadNotAllowed
  | .loadFile order file =>
    if loadAllowed s then
      match file.bind (parseImage order) with
      | some (origin, words) => .next (loadImage origin words s)
      | none => .fault .imageLoadError
    else .refused .loadNotAllowed
  | .start => if s.status = .stopped ∧ s.loaded = true then .next (startCore s) else .refused .startNotAllowed
  | .stop => if s.status = .running then .next { s with stopRequest := true } else .next s
  | .resume => if s.status = .faulted then .next s.resumeAfterError else .refused .resumeNotAllowed
  | .supply c => .next { s with input := s.input ++ [c] }

end Sys2Proof.Machine
end

