-- ==== Sys2Proof/Safety.lean ====
section
/-! DEFINITION. What counts as a good state and a good run, in the terms the claims use. -/

namespace Sys2Proof.Machine

/-- R28: "mutually exclusive": at most one of N, Z, P is true. -/
abbrev Flags.AtMostOne (c : Flags) : Prop :=
  ¬(c.n = true ∧ c.z = true) ∧ ¬(c.n = true ∧ c.p = true) ∧ ¬(c.z = true ∧ c.p = true)

/-- R28: exactly one of N, Z, P is true. -/
abbrev Flags.ExactlyOne (c : Flags) : Prop := c.AtMostOne ∧ (c.n = true ∨ c.z = true ∨ c.p = true)

/-- R27 in its signed reading: N when `signed(v) < 0`, Z when it is 0, P when it is greater than 0. -/
def Flags.Reflect (c : Flags) (v : Word) : Prop :=
  (c.n = true ↔ v.toInt < 0) ∧ (c.z = true ↔ v.toInt = 0) ∧ (c.p = true ↔ 0 < v.toInt)

/-- What every reachable state satisfies: memory in canonical form, at most one flag true (R28), ERR valid when Faulted
(R33), a step holds only while Running (R122), a stop request stands only while Running or once honoured (R127,
R237). -/
structure Inv (s : State) : Prop where
  mem : s.mem.wf = true
  flags : s.cc.AtMostOne
  err : s.status = .faulted → s.err.isSome = true
  hold : s.hold.isSome = true → s.status = .running
  stop : s.stopRequest = true → s.status = .running ∨ s.status = .stopped

/-- The core is about to fetch: Running, no step in progress, no stop request (R120, R127). -/
structure Ready (s : State) : Prop where
  running : s.status = .running
  free : s.hold = none
  unstopped : s.stopRequest = false

/-- A state reached from reset by steps and host actions (R126, R128). -/
inductive Reachable : State → Prop where
  | reset (p : ResetParams) : Reachable (State.resetWith p)
  | step {s t : State} : Reachable s → step s = .next t → Reachable t
  | host {s t : State} (a : HostAction) : Reachable s → hostAct a s = .next t → Reachable t

/-- R129: the end of a run; a run that ends Faulted "has gone wrong and is not a normal end". -/
def Finished (s : State) : Prop := s.status = .halted

/-- R129: no error outcome stands. -/
def Safe (s : State) : Prop := s.status ≠ .faulted

/-- Everything of State that is neither a register, the PC, a flag, memory nor a stream. -/
structure SameControl (s t : State) : Prop where
  status : t.status = s.status
  err : t.err = s.err
  ir : t.ir = s.ir
  fpc : t.fpc = s.fpc
  hold : t.hold = s.hold
  stopRequest : t.stopRequest = s.stopRequest
  loaded : t.loaded = s.loaded

/-- Both character streams as before. -/
structure SameStreams (s t : State) : Prop where
  input : t.input = s.input
  output : t.output = s.output

/-- Every register but those of `ds` as before. -/
def SameRegsBut (ds : List RegNum) (s t : State) : Prop := ∀ r, r ∉ ds → t.reg r = s.reg r

/-- Every word of memory as before. -/
def SameMem (s t : State) : Prop := ∀ a, t.memRead a = s.memRead a

/-- From `s` to `t` only this happened: `v` was written to register `dr` and the flags were set from `v`. -/
structure ResultIn (dr : RegNum) (v : Word) (s t : State) : Prop where
  result : t.reg dr = v
  flags : t.cc.Reflect v
  regs : SameRegsBut [dr] s t
  pc : t.pc = s.pc
  mem : SameMem s t
  streams : SameStreams s t
  control : SameControl s t

/-- From `s` to `t` only this happened: the PC became `target`, and each register of `ds` whatever else is said of
it. -/
structure JumpsTo (target : Word) (ds : List RegNum) (s t : State) : Prop where
  pc : t.pc = target
  regs : SameRegsBut ds s t
  flags : t.cc = s.cc
  mem : SameMem s t
  streams : SameStreams s t
  control : SameControl s t

/-- From `s` to `t` only this happened: the word at `ea` became `v`. -/
structure StoresAt (ea v : Word) (s t : State) : Prop where
  stored : t.memRead ea = v
  mem : ∀ a, a ≠ ea → t.memRead a = s.memRead a
  regs : SameRegsBut [] s t
  flags : t.cc = s.cc
  pc : t.pc = s.pc
  streams : SameStreams s t
  control : SameControl s t

/-- R55: the instructions that write memory. -/
def storesToMemory : Instr → Bool
  | .st _ _ | .str _ _ _ | .sti _ _ => true
  | .br _ _ _ _ | .addReg _ _ _ | .addImm _ _ _ | .ld _ _ | .jsr _ | .jsrr _ | .andReg _ _ _ | .andImm _ _ _
  | .ldr _ _ _ | .rti | .not _ _ | .ldi _ _ | .jmp _ | .lea _ _ | .trap _ | .reserved | .ret | .trapGetc
  | .trapOut | .trapPuts | .trapIn | .trapPutsp | .trapHalt => false

/-- R29: the instructions that call `setcc`. -/
def setsFlags : Instr → Bool
  | .addReg _ _ _ | .addImm _ _ _ | .andReg _ _ _ | .andImm _ _ _ | .not _ _ | .ld _ _ | .ldr _ _ _ | .ldi _ _
  | .lea _ _ | .trapGetc | .trapIn => true
  | .trap vect => decide (vect = 0x20#8) || decide (vect = 0x23#8)
  | .br _ _ _ _ | .st _ _ | .jsr _ | .jsrr _ | .str _ _ _ | .rti | .sti _ _ | .jmp _ | .reserved | .ret | .trapOut
  | .trapPuts | .trapPutsp | .trapHalt => false

/-- R22: the registers an instruction writes. -/
def destinations : Instr → List RegNum
  | .addReg dr _ _ | .addImm dr _ _ | .andReg dr _ _ | .andImm dr _ _ | .not dr _ | .ld dr _ | .ldr dr _ _
  | .ldi dr _ | .lea dr _ => [dr]
  | .jsr _ | .jsrr _ => [7]
  | .trapGetc | .trapIn => [0]
  | .trap vect => if vect = 0x20#8 ∨ vect = 0x23#8 then [0] else []
  | .br _ _ _ _ | .st _ _ | .str _ _ _ | .rti | .sti _ _ | .jmp _ | .reserved | .ret | .trapOut | .trapPuts
  | .trapPutsp | .trapHalt => []

/-- R79: the bits of a word the decoder ignores. -/
def ignoredBits (w : Word) : Word :=
  match opcodeOf w with
  | 0b0001#4 | 0b0101#4 => if w.getLsbD 5 then 0#16 else 0x0018#16
  | 0b0100#4 => if w.getLsbD 11 then 0#16 else 0x063F#16
  | 0b1000#4 | 0b1101#4 => 0x0FFF#16
  | 0b1001#4 => 0x003F#16
  | 0b1100#4 => 0x0E3F#16
  | 0b1111#4 => 0x0F00#16
  | _ => 0#16

/-- R92: the ignored bits of `w` have the values the encoder writes: zeros, but 111111 in NOT's bits [5:0]. -/
def CanonicalWord (w : Word) : Prop :=
  w &&& ignoredBits w = if opcodeOf w = 0b1001#4 then 0x003F#16 else 0#16

/-- The vectors of the six services (R200, R232). -/
def serviceVectors : List Byte := [0x20#8, 0x21#8, 0x22#8, 0x23#8, 0x24#8, 0x25#8]

end Sys2Proof.Machine
end

