-- ==== Sys2Proof/Certificates/Slice0/Obligations.lean ====
section
/-! DEFINITION. The statements for the provers. In every statement about an instruction, `s` is the state `execute` sees:
the PC is already incremented, and IR and FPC hold the instruction's word and address (R120). Encodings rest on the
numbers the spec adopts from general knowledge (D1 to D3; log 15). -/

open Sys2Proof Sys2Proof.Machine

/-! ## Encoding -/

/-- The round trip of R87: decoding an encoded variant gives it back, at every operand the encoding admits. The converse,
that encoding a decoded word gives that word back exactly when its ignored bits have the values the encoder writes, is one
"the document does not claim" (R87): which bits are ignored (R79) and what the encoder writes there (R92) are the spec's
decision D4 (log 15). -/
def Obligations.DecodeOfEncodeGivesTheInstructionBack : Prop :=
  (∀ i : Instr, i.WellFormed → i.isVariant = true → ∃ w, encode i = .ok w ∧ decode w = .ok i) ∧
  (∀ (w : Word) (i : Instr), decode w = .ok i → (encode i = .ok w ↔ CanonicalWord w))

/-- R103, R111: a refining row encodes to its parent's word, which the decoder reads as the parent. -/
def Obligations.RefiningRowsDecodeToTheirParent : Prop :=
  (encode .ret = .ok 0xC1C0#16 ∧ decode 0xC1C0#16 = .ok (.jmp 7)) ∧
  (encode .trapGetc = .ok 0xF020#16 ∧ decode 0xF020#16 = .ok (.trap 0x20#8)) ∧
  (encode .trapOut = .ok 0xF021#16 ∧ decode 0xF021#16 = .ok (.trap 0x21#8)) ∧
  (encode .trapPuts = .ok 0xF022#16 ∧ decode 0xF022#16 = .ok (.trap 0x22#8)) ∧
  (encode .trapIn = .ok 0xF023#16 ∧ decode 0xF023#16 = .ok (.trap 0x23#8)) ∧
  (encode .trapPutsp = .ok 0xF024#16 ∧ decode 0xF024#16 = .ok (.trap 0x24#8)) ∧
  (encode .trapHalt = .ok 0xF025#16 ∧ decode 0xF025#16 = .ok (.trap 0x25#8))

/-- R82: decode fails on the 4096 words 0xD000 to 0xDFFF and on no other. -/
def Obligations.DecodeFailsOnTheReservedOpcodeOnly : Prop :=
  ∀ w : Word, decode w = .error .illegalInstruction ↔ 0xD000 ≤ w.toNat ∧ w.toNat ≤ 0xDFFF

/-- R79: words that differ only in ignored bits decode alike. -/
def Obligations.DecodeIgnoresUnusedBits : Prop :=
  ∀ w w' : Word, w &&& ~~~ignoredBits w = w' &&& ~~~ignoredBits w → decode w = decode w'

/-- R76, R78: what the decoder gives is one of the 18 variants, with every signed field in its range. The encoder refuses an
operand outside its field's range (R93, R95; the spec's decision D21): it truncates none. -/
def Obligations.DecodedInstructionsAreWellFormedVariants : Prop :=
  (∀ (w : Word) (i : Instr), decode w = .ok i → i.WellFormed ∧ i.isVariant = true) ∧
  (∀ (r b : RegNum) (v : Word),
    (v.toInt < -16 ∨ 15 < v.toInt →
      encode (.addImm r b v) = .error .invalidOperand ∧ encode (.andImm r b v) = .error .invalidOperand) ∧
    (v.toInt < -32 ∨ 31 < v.toInt →
      encode (.ldr r b v) = .error .invalidOperand ∧ encode (.str r b v) = .error .invalidOperand) ∧
    (v.toInt < -256 ∨ 255 < v.toInt →
      (∀ n z p, encode (.br n z p v) = .error .invalidOperand) ∧ encode (.ld r v) = .error .invalidOperand ∧
      encode (.ldi r v) = .error .invalidOperand ∧ encode (.lea r v) = .error .invalidOperand ∧
      encode (.st r v) = .error .invalidOperand ∧ encode (.sti r v) = .error .invalidOperand) ∧
    (v.toInt < -1024 ∨ 1023 < v.toInt → encode (.jsr v) = .error .invalidOperand))

/-- R72, R80: one word of each of the table's 18 variants and one of the reserved row, written out field by field; the words
are those of table 2.1 of 95_test_vectors.md. The opcode numbers but 1101 and the field positions are the spec's decisions
D1 and D2 (log 15). -/
def Obligations.DecodeReadsSampleWords : Prop :=
  decode 0b0001_001_010_0_00_011#16 = .ok (.addReg 1 2 3) ∧
  decode 0b0001_001_010_1_11111#16 = .ok (.addImm 1 2 0xFFFF#16) ∧
  decode 0b0101_011_001_0_00_010#16 = .ok (.andReg 3 1 2) ∧
  decode 0b0101_010_011_1_10000#16 = .ok (.andImm 2 3 0xFFF0#16) ∧
  decode 0b1001_001_010_111111#16 = .ok (.not 1 2) ∧
  decode 0b0000_0_1_0_000000011#16 = .ok (.br false true false 3#16) ∧
  decode 0b1100_000_011_000000#16 = .ok (.jmp 3) ∧
  decode 0b0100_1_10000000000#16 = .ok (.jsr 0xFC00#16) ∧
  decode 0b0100_0_00_011_000000#16 = .ok (.jsrr 3) ∧
  decode 0b0010_010_000000101#16 = .ok (.ld 2 5#16) ∧
  decode 0b0110_001_010_111111#16 = .ok (.ldr 1 2 0xFFFF#16) ∧
  decode 0b1010_011_000000010#16 = .ok (.ldi 3 2#16) ∧
  decode 0b1110_000_111111101#16 = .ok (.lea 0 0xFFFD#16) ∧
  decode 0b0011_010_000000001#16 = .ok (.st 2 1#16) ∧
  decode 0b0111_001_110_000011#16 = .ok (.str 1 6 3#16) ∧
  decode 0b1011_100_000000000#16 = .ok (.sti 4 0#16) ∧
  decode 0b1111_0000_00100101#16 = .ok (.trap 0x25#8) ∧
  decode 0b1000_101010111100#16 = .ok .rti ∧
  decode 0b1101_000100100011#16 = .error .illegalInstruction

/-- R13: sign extension from every width, and zero extension. -/
def Obligations.SignExtensionReplicatesTheTopBit : Prop :=
  (∀ (k : Nat) (v : BitVec k), 1 ≤ k → k ≤ 16 →
    (v.getLsbD (k - 1) = false → (sext v).toNat = v.toNat) ∧
    (v.getLsbD (k - 1) = true → (sext v).toNat = v.toNat + (65536 - 2 ^ k)) ∧
    (v.toNat < 2 ^ (k - 1) → (sext v).toInt = v.toNat) ∧
    (2 ^ (k - 1) ≤ v.toNat → (sext v).toInt = (v.toNat : Int) - 2 ^ k) ∧
    (zext v).toNat = v.toNat) ∧
  sext 0b11111#5 = 0xFFFF#16 ∧ (sext 0b11111#5).toInt = -1 ∧ sext 0b01111#5 = 0x000F#16

/-- R104: an instruction's encoded offset reaches its label: the incremented PC plus the offset is the label's address,
whatever the origin. -/
def Obligations.LabelOffsetReachesTheLabel : Prop :=
  ∀ (k a t : Nat) (origin off : Word), 1 ≤ k → k ≤ 16 → labelOffset k a t = .ok off →
    aluAdd (origin + BitVec.ofNat 16 (a + 1)) off = origin + BitVec.ofNat 16 t

/-! ## Flags and the ALU -/

/-- R27: `setcc(v)` writes all three flags, N when `signed(v) < 0`, Z when it is 0, P when it is greater than 0, and
nothing else. -/
def Obligations.SetccReflectsTheSignedValue : Prop :=
  ∀ (s : State) (v : Word), (s.setcc v).cc.Reflect v ∧
    ((s.setcc v).cc.n = true ↔ v.getLsbD 15 = true) ∧ ((s.setcc v).cc.z = true ↔ v = 0x0000#16) ∧
    ((s.setcc v).cc.p = true ↔ v.getLsbD 15 = false ∧ v ≠ 0x0000#16) ∧ s.setcc v = { s with cc := (s.setcc v).cc }

/-- R28: a step leaves the flags alone or leaves exactly one of them true. -/
def Obligations.StepsKeepFlagsOrLeaveExactlyOne : Prop :=
  ∀ s t : State, step s = .next t → t.cc = s.cc ∨ t.cc.ExactlyOne

/-- R28, R29: an instruction that sets the flags leaves exactly one true, unless it holds for input; every other
instruction leaves them alone. -/
def Obligations.OnlyCodeSettingInstructionsChangeFlags : Prop :=
  ∀ (i : Instr) (s t : State), exec i s = .next t →
    (setsFlags i = false → t.cc = s.cc) ∧
    (setsFlags i = true → t.cc.ExactlyOne ∨ ((t.hold = some .getc ∨ t.hold = some .inEcho) ∧ t.cc = s.cc))

/-- R147: addition is the same for both readings, its signed reading brought into range by 65536; NOT and ADD subtract. -/
def Obligations.AdditionWrapsInBothReadings : Prop :=
  ∀ a b : Word,
    (aluAdd a b).toNat = (a.toNat + b.toNat) % 65536 ∧
    ((aluAdd a b).toInt = a.toInt + b.toInt ∨ (aluAdd a b).toInt = a.toInt + b.toInt + 65536 ∨
      (aluAdd a b).toInt = a.toInt + b.toInt - 65536) ∧
    (aluAdd a (aluAdd (aluNot b) 1#16)).toNat = (a.toNat + 65536 - b.toNat) % 65536

/-! ## Memory and registers -/

/-- R53: a write replaces the word at its address, every other address keeps its value, every address can be written, and
the next fetch sees it. The premise is memory's canonical form, an invariant (InvariantKeptByEveryStep). -/
def Obligations.MemWriteReplacesOneWord : Prop :=
  ∀ (s : State) (a v : Word), s.mem.wf = true →
    (s.memWrite a v).memRead a = v ∧ (∀ b, b ≠ a → (s.memWrite a v).memRead b = s.memRead b) ∧
    s.memWrite a v = { s with mem := (s.memWrite a v).mem } ∧ (fetch ((s.memWrite a v).setPc a)).ir = v

/-- Log 7: memories in canonical form that read alike are the same data. -/
def Obligations.CanonicalMemoriesThatReadAlikeAreEqual : Prop :=
  ∀ m m' : Memory, m.wf = true → m'.wf = true → (∀ a : Word, m.read a.toNat = m'.read a.toNat) → m = m'

/-- R55: only ST, STR and STI write memory. -/
def Obligations.OnlyStoresChangeMemory : Prop :=
  ∀ (i : Instr) (s t : State), exec i s = .next t → storesToMemory i = false → SameMem s t

/-- R20: R0..R7 are eight plain registers: each holds what was written to it, none is hard-wired, read-only or another's
alias. -/
def Obligations.EveryRegisterHoldsWhatIsWritten : Prop :=
  ∀ (s : State) (r : RegNum) (v : Word), (s.setReg r v).reg r = v ∧
    (∀ q, q ≠ r → (s.setReg r v).reg q = s.reg q) ∧ s.setReg r v = { s with regs := (s.setReg r v).regs }

/-- R21, R22, R201: an instruction writes its destination register and no other; R7 is written otherwise by JSR and JSRR
alone, R0 by GETC and IN. -/
def Obligations.OnlyDestinationRegistersChange : Prop :=
  ∀ (i : Instr) (s t : State), exec i s = .next t → SameRegsBut (destinations i) s t

/-! ## The step -/

/-- R120: a ready core fetches at the PC, increments it before it decodes, and executes what the decoder reads, or raises
IllegalInstruction(FPC, IR) where decoding fails. -/
def Obligations.StepRunsTheDecodedInstruction : Prop :=
  ∀ s : State, Ready s →
    (∀ i : Instr, decode (s.memRead s.pc) = .ok i →
      step s = exec i { s with fpc := s.pc, ir := s.memRead s.pc, pc := s.pc + 1#16 }) ∧
    (decode (s.memRead s.pc) = .error .illegalInstruction →
      step s = .next { s with
        fpc := s.pc, ir := s.memRead s.pc, pc := s.pc + 1#16, status := .faulted,
        err := some ⟨.illegalInstruction, s.pc, s.memRead s.pc⟩ })

/-- No model step stops the machine with a fault or a refusal: the outcomes Next, Halt and Fault of R122 are next states, and
"No other synchronous exception exists" (R235). That a step which holds, which R122 and R125 give no result, answers a next
state too is the model's choice (log 8, log 9); that a core that is not Running answers its own state is DEDUCED from R123
(log 10). -/
def Obligations.EveryStepAnswersANextState : Prop := ∀ s : State, ∃ t, step s = .next t

/-- R123: "With STATUS Halted, Faulted or Stopped the core performs no fetch and changes no state." -/
def Obligations.NoStepUnlessRunning : Prop := ∀ s : State, s.status ≠ .running → step s = .next s

/-- R127: the check-point stops the core before the fetch and touches STATUS alone; a step that holds is not interrupted
(log 11). -/
def Obligations.StopRequestIsHonouredAtTheCheckPoint : Prop :=
  (∀ s : State, s.status = .running → s.hold = none → s.stopRequest = true →
    step s = .next { s with status := .stopped }) ∧
  (∀ (s : State) (h : Hold), s.status = .running → s.hold = some h → ∃ t, step s = .next t ∧ t.status = .running)

/-- R122, R237: from a ready state, the word fetched decides STATUS: TRAP with vector x25 halts, opcode 1101 and an
unsupported vector fault with the word and its address in ERR, every other word leaves the core Running; halted or
faulted, the PC is the incremented one. -/
def Obligations.FetchedWordDecidesTheOutcome : Prop :=
  ∀ s t : State, Ready s → step s = .next t →
    (t.status = .halted ↔ opcodeOf (s.memRead s.pc) = 0b1111#4 ∧ field (s.memRead s.pc) 7 8 = 0x25#8) ∧
    (t.status = .faulted ↔ opcodeOf (s.memRead s.pc) = 0b1101#4 ∨
      (opcodeOf (s.memRead s.pc) = 0b1111#4 ∧ field (s.memRead s.pc) 7 8 ∉ serviceVectors)) ∧
    (t.status = .halted ∨ t.status = .faulted ∨ t.status = .running) ∧
    (t.status = .faulted → t.err = some ⟨if opcodeOf (s.memRead s.pc) = 0b1101#4 then .illegalInstruction
      else .unsupportedTrap, s.pc, s.memRead s.pc⟩) ∧
    (t.status = .halted ∨ t.status = .faulted → t.pc = s.pc + 1#16)

/-- R32, R123, R212: a halted core stays as it is through any number of steps, and no host action but reset changes
STATUS. -/
def Obligations.HaltedIsLeftByResetOnly : Prop :=
  ∀ s : State, s.status = .halted →
    (∀ k, core.run k s = .next s) ∧
    (∀ (a : HostAction) (t : State), hostAct a s = .next t → t.status ≠ .halted → ∃ p, a = .reset p)

/-- R28, R33, R122, R127 and the canonical form of memory (log 7): every step keeps the invariant. -/
def Obligations.InvariantKeptByEveryStep : Prop := ∀ s t : State, Inv s → step s = .next t → Inv t

/-- The invariant holds after reset, whatever reset leaves open (R260). -/
def Obligations.InvariantHoldsAtReset : Prop := ∀ p : ResetParams, Inv (State.resetWith p)

/-- Every host action keeps the invariant (R126). -/
def Obligations.InvariantKeptByHostActions : Prop :=
  ∀ (a : HostAction) (s t : State), Inv s → hostAct a s = .next t → Inv t

/-- Every state reached from reset by steps and host actions satisfies the invariant (R28, R126, R128). -/
def Obligations.ReachableStatesSatisfyTheInvariant : Prop := ∀ s : State, Reachable s → Inv s

/-! ## Operate instructions -/

/-- ADD, register mode (the effect of R142). -/
def Obligations.AddRegisterWritesTheSum : Prop :=
  ∀ (dr sr1 sr2 : RegNum) (s : State), ∃ t, exec (.addReg dr sr1 sr2) s = .next t ∧
    ResultIn dr (s.reg sr1 + s.reg sr2) s t

/-- ADD, immediate mode (the effect of R143). -/
def Obligations.AddImmediateWritesTheSum : Prop :=
  ∀ (dr sr1 : RegNum) (imm : Word) (s : State), ∃ t, exec (.addImm dr sr1 imm) s = .next t ∧
    ResultIn dr (s.reg sr1 + imm) s t

/-- AND, register mode (the effect of R144). -/
def Obligations.AndRegisterWritesTheConjunction : Prop :=
  ∀ (dr sr1 sr2 : RegNum) (s : State), ∃ t, exec (.andReg dr sr1 sr2) s = .next t ∧
    ResultIn dr (s.reg sr1 &&& s.reg sr2) s t

/-- AND, immediate mode (the effect of R145). -/
def Obligations.AndImmediateWritesTheConjunction : Prop :=
  ∀ (dr sr1 : RegNum) (imm : Word) (s : State), ∃ t, exec (.andImm dr sr1 imm) s = .next t ∧
    ResultIn dr (s.reg sr1 &&& imm) s t

/-- NOT (the effect of R146). -/
def Obligations.NotWritesTheComplement : Prop :=
  ∀ (dr sr : RegNum) (s : State), ∃ t, exec (.not dr sr) s = .next t ∧ ResultIn dr (~~~(s.reg sr)) s t

/-! ## Control transfer -/

/-- BR (the effect of R161): taken when no request bit is set or a requested flag is true. -/
def Obligations.BranchIsTakenOnARequestedFlag : Prop :=
  ∀ (n z p : Bool) (off : Word) (s : State), ∃ t, exec (.br n z p off) s = .next t ∧
    (((n = false ∧ z = false ∧ p = false) ∨ (n = true ∧ s.cc.n = true) ∨ (z = true ∧ s.cc.z = true) ∨
        (p = true ∧ s.cc.p = true)) → JumpsTo (s.pc + off) [] s t) ∧
    (¬((n = false ∧ z = false ∧ p = false) ∨ (n = true ∧ s.cc.n = true) ∨ (z = true ∧ s.cc.z = true) ∨
        (p = true ∧ s.cc.p = true)) → t = s)

/-- JMP and RET (the effect of R163). -/
def Obligations.JmpAndRetGoToTheBaseRegister : Prop :=
  (∀ (base : RegNum) (s : State), ∃ t, exec (.jmp base) s = .next t ∧ JumpsTo (s.reg base) [] s t) ∧
  (∀ s : State, ∃ t, exec .ret s = .next t ∧ JumpsTo (s.reg 7) [] s t)

/-- JSR (the effect of R164). -/
def Obligations.JsrLinksThenJumpsRelative : Prop :=
  ∀ (off : Word) (s : State), ∃ t, exec (.jsr off) s = .next t ∧ t.reg 7 = s.pc ∧ JumpsTo (s.pc + off) [7] s t

/-- JSRR (the effect of R165): R7 is written before the base is read, the spec's decision D17 (log 16). -/
def Obligations.JsrrLinksThenJumpsToTheBase : Prop :=
  ∀ (base : RegNum) (s : State), ∃ t, exec (.jsrr base) s = .next t ∧ t.reg 7 = s.pc ∧
    JumpsTo (if base = 7 then s.pc else s.reg base) [7] s t

/-! ## Loads and stores -/

/-- LD, LDR, LDI (the effects of R181, R182, R183); LDI's flags are the spec's decision D8 (log 16). -/
def Obligations.LoadsPutTheAddressedWordInTheRegister : Prop :=
  (∀ (dr : RegNum) (off : Word) (s : State), ∃ t, exec (.ld dr off) s = .next t ∧
    ResultIn dr (s.memRead (s.pc + off)) s t) ∧
  (∀ (dr base : RegNum) (off : Word) (s : State), ∃ t, exec (.ldr dr base off) s = .next t ∧
    ResultIn dr (s.memRead (s.reg base + off)) s t) ∧
  (∀ (dr : RegNum) (off : Word) (s : State), ∃ t, exec (.ldi dr off) s = .next t ∧
    ResultIn dr (s.memRead (s.memRead (s.pc + off))) s t)

/-- LEA (the effect of R184). -/
def Obligations.LeaPutsTheAddressInTheRegister : Prop :=
  ∀ (dr : RegNum) (off : Word) (s : State), ∃ t, exec (.lea dr off) s = .next t ∧ ResultIn dr (s.pc + off) s t

/-- ST, STR, STI (the effects of R185, R186, R187). The premise is memory's canonical form, an invariant. -/
def Obligations.StoresReplaceTheAddressedWord : Prop :=
  ∀ s : State, s.mem.wf = true →
    (∀ (sr : RegNum) (off : Word), ∃ t, exec (.st sr off) s = .next t ∧ StoresAt (s.pc + off) (s.reg sr) s t) ∧
    (∀ (sr base : RegNum) (off : Word), ∃ t, exec (.str sr base off) s = .next t ∧
      StoresAt (s.reg base + off) (s.reg sr) s t) ∧
    (∀ (sr : RegNum) (off : Word), ∃ t, exec (.sti sr off) s = .next t ∧
      StoresAt (s.memRead (s.pc + off)) (s.reg sr) s t)

/-! ## TRAP, its services, RTI, the reserved opcode -/

/-- R200, R232: TRAP runs the service of its vector, and raises UnsupportedTrap for the 250 other vectors. -/
def Obligations.TrapRunsTheServiceOfItsVector : Prop :=
  ∀ s : State,
    exec (.trap 0x20#8) s = exec .trapGetc s ∧ exec (.trap 0x21#8) s = exec .trapOut s ∧
    exec (.trap 0x22#8) s = exec .trapPuts s ∧ exec (.trap 0x23#8) s = exec .trapIn s ∧
    exec (.trap 0x24#8) s = exec .trapPutsp s ∧ exec (.trap 0x25#8) s = exec .trapHalt s ∧
    (∀ v, v ∉ serviceVectors → exec (.trap v) s =
      .next { s with status := .faulted, err := some ⟨.unsupportedTrap, s.fpc, s.ir⟩ })

/-- TRAP completes: on the vectors of OUT and HALT in every state, on the other four where their service does
(R200, R204, R212). -/
def Obligations.TrapCompletesItsService : Prop :=
  (∀ s : State, ∃ t, exec (.trap 0x25#8) s = .next t ∧ t = { s with status := .halted }) ∧
  (∀ s : State, ∃ t, exec (.trap 0x21#8) s = .next t ∧
    t = { s with output := s.output ++ [(s.memRead Config.outCell).setWidth 8] }) ∧
  (∀ (s : State) (c : Byte) (rest : List Byte), s.input = c :: rest →
    (∃ t, exec (.trap 0x20#8) s = .next t ∧ t.input = rest ∧ t.reg 0 = zext c) ∧
    (∃ t, exec (.trap 0x23#8) s = .next t ∧ t.input = rest ∧ t.reg 0 = zext c ∧ t.output = s.output ++ [c])) ∧
  (∀ s : State, s.memRead (s.reg 0) = 0#16 →
    (∃ t, exec (.trap 0x22#8) s = .next t ∧ t.pc = s.pc ∧ t.output = s.output) ∧
    (∃ t, exec (.trap 0x24#8) s = .next t ∧ t.pc = s.pc ∧ t.output = s.output))

/-- GETC and IN with a character waiting (the effects of R203, R206): it leaves the input stream and enters R0
zero-extended, the flags follow R0, and IN echoes it. The 8-bit character is the spec's decision D10 (log 16). -/
def Obligations.InputServicesTakeTheFrontCharacter : Prop :=
  ∀ (s : State) (c : Byte) (rest : List Byte), s.input = c :: rest →
    (∃ t, exec .trapGetc s = .next t ∧ t.reg 0 = zext c ∧ t.cc.Reflect (zext c) ∧ t.cc.n = false ∧
      SameRegsBut [0] s t ∧ t.pc = s.pc ∧ SameMem s t ∧ t.input = rest ∧ t.output = s.output ∧
      SameControl (s.setHold none) t) ∧
    (∃ t, exec .trapIn s = .next t ∧ t.reg 0 = zext c ∧ t.cc.Reflect (zext c) ∧ t.cc.n = false ∧
      SameRegsBut [0] s t ∧ t.pc = s.pc ∧ SameMem s t ∧ t.input = rest ∧ t.output = s.output ++ [c] ∧
      SameControl (s.setHold none) t)

/-- GETC and IN with the input stream empty (R124): the step holds, nothing else changed, for as long as no character
comes. The `hold` field is the model's rendering of the hold (log 8). -/
def Obligations.InputServicesHoldOnAnEmptyStream : Prop :=
  ∀ s : State, s.input = [] →
    exec .trapGetc s = .next { s with hold := some .getc } ∧
    exec .trapIn s = .next { s with hold := some .inEcho } ∧
    (s.status = .running → (s.hold = some .getc ∨ s.hold = some .inEcho) → ∀ k, core.run k s = .next s)

/-- R124: what lifts the hold is the host appending a character; the next step then completes the service exactly as if
the character had been waiting: R0 is the character and IN echoes it (the effects of R203, R206). The 8-bit character,
zero-extended in R0, is the spec's decision D10 (log 16); the `hold` field is the model's (log 8). -/
def Obligations.SuppliedCharacterCompletesTheHold : Prop :=
  ∀ (s u : State) (c : Byte), s.status = .running → s.input = [] →
    (s.hold = some .getc → hostAct (.supply c) s = .next u →
      step u = exec .trapGetc u ∧ ∃ t, step u = .next t ∧ t.hold = none ∧ t.reg 0 = zext c ∧ t.input = []) ∧
    (s.hold = some .inEcho → hostAct (.supply c) s = .next u →
      step u = exec .trapIn u ∧ ∃ t, step u = .next t ∧ t.hold = none ∧ t.reg 0 = zext c ∧ t.input = [] ∧
        t.output = s.output ++ [c])

/-- OUT (the effect of R204): bits [7:0] of the word at `OUT_CELL`, whatever that address is (log 5). -/
def Obligations.OutWritesTheFixedCell : Prop :=
  ∀ s : State, ∃ t, exec .trapOut s = .next t ∧
    t.output = s.output ++ [(s.memRead Config.outCell).setWidth 8] ∧ t.input = s.input ∧ SameRegsBut [] s t ∧
    t.cc = s.cc ∧ t.pc = s.pc ∧ SameMem s t ∧ SameControl s t

/-- PUTS (the effect of R208): the low bytes of the words before the first zero word are written and the PC advances by
their number, the spec's decision D11 (log 16). -/
def Obligations.PutsWritesTheStringAndAdvancesThePC : Prop :=
  ∀ (s : State) (n : Nat),
    (∀ i, i < n → s.memRead (s.reg 0 + BitVec.ofNat 16 i) ≠ 0#16) →
    s.memRead (s.reg 0 + BitVec.ofNat 16 n) = 0#16 →
    ∃ t, exec .trapPuts s = .next t ∧
      t.output = s.output ++
        (List.range n).map (fun i => (s.memRead (s.reg 0 + BitVec.ofNat 16 i)).setWidth 8) ∧
      t.pc = s.pc + BitVec.ofNat 16 n ∧ t.input = s.input ∧ SameRegsBut [] s t ∧ t.cc = s.cc ∧ SameMem s t ∧
      SameControl (s.setHold none) t

/-- PUTSP (the effect of R210): of each word the low byte, then the high byte unless it is zero; the PC advances by the
number of words. The byte order and the advance are the spec's decision D12 (log 16). -/
def Obligations.PutspWritesTwoCharactersPerWord : Prop :=
  ∀ (s : State) (n : Nat),
    (∀ i, i < n → s.memRead (s.reg 0 + BitVec.ofNat 16 i) ≠ 0#16) →
    s.memRead (s.reg 0 + BitVec.ofNat 16 n) = 0#16 →
    ∃ t, exec .trapPutsp s = .next t ∧
      t.output = s.output ++
        (List.range n).flatMap (fun i =>
          (s.memRead (s.reg 0 + BitVec.ofNat 16 i)).setWidth 8 ::
            (if (s.memRead (s.reg 0 + BitVec.ofNat 16 i)).toNat / 256 = 0 then []
              else [BitVec.ofNat 8 ((s.memRead (s.reg 0 + BitVec.ofNat 16 i)).toNat / 256)])) ∧
      t.pc = s.pc + BitVec.ofNat 16 n ∧ t.input = s.input ∧ SameRegsBut [] s t ∧ t.cc = s.cc ∧ SameMem s t ∧
      SameControl (s.setHold none) t

/-- R125: PUTS and PUTSP come to an end exactly when some word of memory is zero; else the step holds. -/
def Obligations.StringServicesEndIffSomeWordIsZero : Prop :=
  ∀ s : State,
    ((∃ b, s.memRead b = 0#16) → (∃ t, exec .trapPuts s = .next t ∧ t.hold = none) ∧
      (∃ t, exec .trapPutsp s = .next t ∧ t.hold = none)) ∧
    ((∀ b, s.memRead b ≠ 0#16) → exec .trapPuts s = .next { s with hold := some (.puts 0#16) } ∧
      exec .trapPutsp s = .next { s with hold := some (.putsp 0#16) })

/-- R125: with no zero word in memory a PUTS never completes: after any number of further steps the core is still
Running inside it, with nothing changed but the characters written (log 9). -/
def Obligations.UnterminatedPutsNeverCompletes : Prop :=
  ∀ s : State, s.status = .running → s.hold = some (.puts 0#16) → (∀ b, s.memRead b ≠ 0#16) → ∀ k,
    core.run k s = .next { s with
      hold := some (.puts (BitVec.ofNat 16 k)),
      output := s.output ++
        (List.range k).map (fun i => (s.memRead (s.reg 0 + BitVec.ofNat 16 i)).setWidth 8) }

/-- R125, PUTSP: with no zero word in memory it never completes either; after any number of further steps the core is still
Running inside it, with nothing changed but the characters written, two or one of each word as R210 says (log 9; the byte
order is the spec's decision D12, log 16). -/
def Obligations.UnterminatedPutspNeverCompletes : Prop :=
  ∀ s : State, s.status = .running → s.hold = some (.putsp 0#16) → (∀ b, s.memRead b ≠ 0#16) → ∀ k,
    core.run k s = .next { s with
      hold := some (.putsp (BitVec.ofNat 16 k)),
      output := s.output ++
        (List.range k).flatMap (fun i =>
          (s.memRead (s.reg 0 + BitVec.ofNat 16 i)).setWidth 8 ::
            (if (s.memRead (s.reg 0 + BitVec.ofNat 16 i)).toNat / 256 = 0 then []
              else [BitVec.ofNat 8 ((s.memRead (s.reg 0 + BitVec.ofNat 16 i)).toNat / 256)])) }

/-- HALT (R212): STATUS Halted, no register, flag, memory word or stream changed, the PC at the address of the TRAP plus
one; after it no step executes. -/
def Obligations.HaltChangesStatusAlone : Prop :=
  ∀ s : State, ∃ t, exec .trapHalt s = .next t ∧ t = { s with status := .halted } ∧ step t = .next t

/-- RTI (R214): "no-op (interrupt return is not modeled)". -/
def Obligations.RtiChangesNothing : Prop := ∀ s : State, ∃ t, exec .rti s = .next t ∧ t = s

/-- The reserved row's own effect is the IllegalInstruction error (R231, R233). -/
def Obligations.ReservedRowRaisesIllegalInstruction : Prop :=
  ∀ s : State, ∃ t, exec .reserved s = .next t ∧
    t = { s with status := .faulted, err := some ⟨.illegalInstruction, s.fpc, s.ir⟩ }

/-! ## Host -/

/-- R260, R23, R30: what reset leaves, for every value of what the spec leaves open: memory zero everywhere, STATUS Stopped,
ERR none, both streams empty, and the registers, the flags and the PC at the open parameters. That no stop request and no
image stands, so that the load and start of R266 are allowed again, is the model's reading (log 11, log 12). -/
def Obligations.ResetLeavesZeroMemoryAndStopped : Prop :=
  ∀ (p : ResetParams) (s : State), s.status ≠ .running → ∃ t, hostAct (.reset p) s = .next t ∧
    (∀ a, t.memRead a = 0x0000#16) ∧ t.status = .stopped ∧ t.err = none ∧ t.input = [] ∧ t.output = [] ∧
    (∀ r : RegNum, t.reg r = p.regs[r]) ∧ t.pc = p.pc ∧ t.cc.AtMostOne ∧
    (t.cc.n = true ↔ p.cc = .n) ∧ (t.cc.z = true ↔ p.cc = .z) ∧ (t.cc.p = true ↔ p.cc = .p) ∧
    t.ir = p.ir ∧ t.fpc = p.fpc ∧ t.hold = none ∧ t.stopRequest = false ∧ t.loaded = false ∧
    (∀ origin ws, ∃ u v, hostAct (.load origin ws) t = .next u ∧ hostAct .start u = .next v ∧ v.status = .running ∧
      v.pc = origin)

/-- R262, R263: loading an image into a Stopped core that holds none puts its words at consecutive addresses from the
origin, wrapping, an image of more than 65536 words over its own beginning, leaves every other word alone, sets the PC to
the origin, and changes nothing else but that an image now counts as loaded (log 12). -/
def Obligations.LoadPlacesTheImageAtItsOrigin : Prop :=
  ∀ (s : State) (origin : Word) (ws : List Word), s.mem.wf = true → s.status = .stopped → s.loaded = false →
    ∃ t, hostAct (.load origin ws) s = .next t ∧
      (∀ (k : Nat) (h : k < ws.length), ws.length ≤ k + 65536 → t.memRead (origin + BitVec.ofNat 16 k) = ws[k]) ∧
      (∀ a, (∀ k, k < ws.length → a ≠ origin + BitVec.ofNat 16 k) → t.memRead a = s.memRead a) ∧
      t = { s with mem := t.mem, pc := origin, loaded := true }

/-- R265: "Loading a file with origin `0x3000` and 3 data words populates MemoryImage[0x3000..0x3002] exactly those 3
values; all other addresses remain at their pre-load default (zero)." -/
def Obligations.ThreeWordImageAtX3000 : Prop :=
  ∀ (p : ResetParams) (a b c : Word), ∃ t, hostAct (.load 0x3000#16 [a, b, c]) (State.resetWith p) = .next t ∧
    t.memRead 0x3000#16 = a ∧ t.memRead 0x3001#16 = b ∧ t.memRead 0x3002#16 = c ∧
    ∀ x : Word, x ≠ 0x3000#16 → x ≠ 0x3001#16 → x ≠ 0x3002#16 → t.memRead x = 0x0000#16

/-- R264, R59: a file that is unreadable, has no complete origin word or ends mid-word fails to load with ImageLoadError, in
either byte order; every other file loads as its words do: two bytes a word, the first word the origin, the high byte
first in one order and last in the other (D18; log 6). What such an answer leaves is the state before it. -/
def Obligations.ImageFileLoadsWholeOrFails : Prop :=
  (∀ (s : State) (order : ByteOrder), s.status = .stopped → s.loaded = false →
    hostAct (.loadFile order none) s = .fault .imageLoadError ∧
    (∀ bytes : List Byte, bytes.length < 2 ∨ bytes.length % 2 = 1 →
      hostAct (.loadFile order (some bytes)) s = .fault .imageLoadError) ∧
    (∀ bytes : List Byte, 2 ≤ bytes.length → bytes.length % 2 = 0 →
      ∃ origin ws, ws.length = bytes.length / 2 - 1 ∧
        origin = wordOfBytes order (bytes.getD 0 0#8) (bytes.getD 1 0#8) ∧
        (∀ (k : Nat) (h : k < ws.length),
          ws[k] = wordOfBytes order (bytes.getD (2 * k + 2) 0#8) (bytes.getD (2 * k + 3) 0#8)) ∧
        hostAct (.loadFile order (some bytes)) s = hostAct (.load origin ws) s)) ∧
  (∀ first second : Byte, (wordOfBytes .big first second).toNat = 256 * first.toNat + second.toNat ∧
    (wordOfBytes .little first second).toNat = first.toNat + 256 * second.toNat)

/-- When the host's actions are refused, and what start, stop, resume and supply change; what reset and load change is
ResetLeavesZeroMemoryAndStopped and LoadPlacesTheImageAtItsOrigin.
R126, R266, R267: one image is loaded per reset and only while Stopped; start needs Stopped and an image; resume needs
Faulted and changes STATUS alone, so the failing word is skipped; a character is appended at the end of the input stream
at any time, also while a step holds (R36). R127: a stop request asked of a ready core is honoured before its next fetch,
and the start after it gives the core back as it was. That what is not allowed is a refusal, that start clears the request
and that a request while not Running is lost are the model's (log 11, log 12). -/
def Obligations.HostControlsFollowStatus : Prop :=
  (∀ (s : State) (order : ByteOrder) (file : Option (List Byte)) (origin : Word) (ws : List Word),
    s.status ≠ .stopped ∨ s.loaded = true →
      hostAct (.load origin ws) s = .refused .loadNotAllowed ∧
      hostAct (.loadFile order file) s = .refused .loadNotAllowed) ∧
  (∀ s : State, s.status ≠ .stopped ∨ s.loaded = false → hostAct .start s = .refused .startNotAllowed) ∧
  (∀ s : State, s.status = .stopped → s.loaded = true →
    hostAct .start s = .next { s with status := .running, stopRequest := false }) ∧
  (∀ s : State, s.status = .running → hostAct .stop s = .next { s with stopRequest := true }) ∧
  (∀ s : State, s.status ≠ .running → hostAct .stop s = .next s) ∧
  (∀ s : State, s.loaded = true → Ready s → ∃ a b, hostAct .stop s = .next a ∧ step a = .next b ∧
    b.status = .stopped ∧ b.pc = s.pc ∧ hostAct .start b = .next s) ∧
  (∀ s : State, s.status = .faulted → hostAct .resume s = .next { s with status := .running }) ∧
  (∀ s : State, s.status ≠ .faulted → hostAct .resume s = .refused .resumeNotAllowed) ∧
  (∀ (s : State) (p : ResetParams), s.status = .running → hostAct (.reset p) s = .refused .resetWhileRunning) ∧
  (∀ (s : State) (c : Byte), hostAct (.supply c) s = .next { s with input := s.input ++ [c] })

/-- R126: "The host never writes a register, a flag, the PC or memory while STATUS is Running." -/
def Obligations.HostLeavesARunningCoreAlone : Prop :=
  ∀ (a : HostAction) (s t : State), s.status = .running → hostAct a s = .next t →
    t.regs = s.regs ∧ t.cc = s.cc ∧ t.pc = s.pc ∧ t.mem = s.mem ∧ t.status = .running

/-- R108, R208, R262: a `.STRINGZ` block loaded where R0 points is what PUTS writes; the PC's advance by the string's length
is the spec's decision D11 (log 16). -/
def Obligations.PutsPrintsAStringzBlock : Prop :=
  ∀ (s : State) (chars : List Byte) (symbols : SymbolTable) (a : Nat) (ws : List Word), s.mem.wf = true →
    (∀ c ∈ chars, c ≠ 0#8) → chars.length < 65536 → (AsmStatement.stringz chars).emit symbols a = .ok ws →
    ∃ t, exec .trapPuts { s with mem := s.mem.load (s.reg 0) ws } = .next t ∧ t.output = s.output ++ chars ∧
      t.pc = s.pc + BitVec.ofNat 16 chars.length
end

