-- ==== Sys2Proof/Laws/Assembler.lean ====
section
/-! SUPPORT. The toolchain: what the front end accepts is well-formed, so that only an operand can fail (R95), and a failed
statement leaves the words before it alone. -/

namespace Sys2Proof.Machine

/-- A sequence of two encoder steps succeeds exactly when both do. -/
theorem except_bind_eq_ok {α β : Type} {x : Except EncodeError α} {f : α → Except EncodeError β} {b : β} :
    (x >>= f) = .ok b ↔ ∃ a, x = .ok a ∧ f a = .ok b := by
  cases x with
  | error e => exact ⟨nofun, fun ⟨_, h, _⟩ => nomatch h⟩
  | ok a => exact ⟨fun h => ⟨a, rfl, h⟩, fun ⟨_, h, hf⟩ => by cases h; exact hf⟩

/-- A step that succeeds hands its value on. -/
theorem except_ok_bind {α β : Type} (a : α) (f : α → Except EncodeError β) :
    ((.ok a : Except EncodeError α) >>= f) = f a := rfl

/-- A mapped encoder step succeeds exactly when the step does. -/
theorem except_map_eq_ok {α β : Type} {x : Except EncodeError α} {f : α → β} {b : β} :
    x.map f = .ok b ↔ ∃ a, x = .ok a ∧ f a = b := by
  cases x with
  | error e => exact ⟨nofun, fun ⟨_, h, _⟩ => nomatch h⟩
  | ok a => simp [Except.map]

/-- What `signedOperand` accepts lies in its field's range (R76, R93). -/
theorem signedOperand_fits {k : Nat} (hk : k ≤ 16) {v : Int} {w : Word} (h : signedOperand k v = .ok w) :
    fitsSigned k w = true := by
  unfold signedOperand at h
  split at h
  · rename_i hv
    cases h
    have hp : (2 : Int) ^ (k - 1) ≤ 2 ^ 15 := by
      exact_mod_cast Nat.pow_le_pow_right (n := 2) (by omega) (by omega : k - 1 ≤ 15)
    have hi : (BitVec.ofInt 16 v).toInt = v := by
      rw [BitVec.toInt_ofInt]
      exact Int.bmod_eq_of_le (by omega) (by omega)
    simp [fitsSigned, hi, hv]
  · cases h

/-- A signed literal read as an operand lies in its field's range. -/
theorem asSigned_fits {k : Nat} (hk : k ≤ 16) {t : OperandToken} {w : Word} (h : t.asSigned k = .ok w) :
    fitsSigned k w = true := by
  cases t <;> first | exact signedOperand_fits hk h | cases h

/-- A label read as an operand is an offset in its field's range (R104). -/
theorem asOffset_fits {k : Nat} (hk : k ≤ 16) {symbols : SymbolTable} {a : Nat} {t : OperandToken} {w : Word}
    (h : t.asOffset k symbols a = .ok w) : fitsSigned k w = true := by
  cases t with
  | label id =>
    obtain ⟨t, -, ht⟩ := except_bind_eq_ok.1 h
    exact signedOperand_fits hk ht
  | register _ | literal _ | string _ | other => cases h

/-- The last operand of an ADD gives a well-formed ADD (R94). -/
theorem assembleAdd_wellFormed {dr sr1 : RegNum} {t : OperandToken} {i : Instr} (h : assembleAdd dr sr1 t = .ok i) :
    i.WellFormed := by
  cases t with
  | register n => obtain ⟨r, -, rfl⟩ := except_map_eq_ok.1 h; rfl
  | literal v =>
    obtain ⟨w, hw, rfl⟩ := except_map_eq_ok.1 h
    simp [Instr.WellFormed, Instr.wellFormed, Instr.operandsInRange, Instr.hasSchema, signedOperand_fits (by omega) hw]
  | label _ | string _ | other => cases h

/-- The last operand of an AND gives a well-formed AND (R94). -/
theorem assembleAnd_wellFormed {dr sr1 : RegNum} {t : OperandToken} {i : Instr} (h : assembleAnd dr sr1 t = .ok i) :
    i.WellFormed := by
  cases t with
  | register n => obtain ⟨r, -, rfl⟩ := except_map_eq_ok.1 h; rfl
  | literal v =>
    obtain ⟨w, hw, rfl⟩ := except_map_eq_ok.1 h
    simp [Instr.WellFormed, Instr.wellFormed, Instr.operandsInRange, Instr.hasSchema, signedOperand_fits (by omega) hw]
  | label _ | string _ | other => cases h

/-- Whatever the front end accepts, the encoder can encode (R93, R101). -/
theorem assembleInstr_wellFormed {symbols : SymbolTable} {a : Nat} {m : Mnemonic} {operands : List OperandToken} {i : Instr}
    (h : assembleInstr symbols a m operands = .ok i) : i.WellFormed := by
  have hp : ∀ j : Instr, (pure j : Except EncodeError Instr) = .ok i ↔ j = i := fun j => Except.ok.injEq j i ▸ Iff.rfl
  unfold assembleInstr at h
  split at h <;> simp only [except_bind_eq_ok, hp, Except.ok.injEq, reduceCtorEq] at h
  case h_1 => obtain ⟨_, -, _, -, h⟩ := h; exact assembleAdd_wellFormed h
  case h_2 => obtain ⟨_, -, _, -, h⟩ := h; exact assembleAnd_wellFormed h
  case h_3 => obtain ⟨_, -, _, -, rfl⟩ := h; rfl
  case h_5 | h_8 => obtain ⟨_, -, rfl⟩ := h; rfl
  case h_6 | h_17 => cases h; rfl
  case h_16 => obtain ⟨_, -, rfl⟩ := h; rfl
  case h_4 | h_7 =>
    obtain ⟨_, h, rfl⟩ := h
    simp [branchOf, Instr.WellFormed, Instr.wellFormed, Instr.operandsInRange, Instr.hasSchema,
      asOffset_fits (by omega) h]
  case h_9 | h_10 | h_12 | h_13 | h_14 =>
    obtain ⟨_, -, _, h, rfl⟩ := h
    simp [Instr.WellFormed, Instr.wellFormed, Instr.operandsInRange, Instr.hasSchema, asOffset_fits (by omega) h]
  case h_11 | h_15 =>
    obtain ⟨_, -, _, -, _, h, rfl⟩ := h
    simp [Instr.WellFormed, Instr.wellFormed, Instr.operandsInRange, Instr.hasSchema, asSigned_fits (by omega) h]

/-- R91: "Every schema sums to 16". -/
theorem schemaWidth_of_hasSchema (i : Instr) (h : i.hasSchema = true) : schemaWidth (schema i) = 16 := by
  cases i <;> first | rfl | cases h

/-- A well-formed instruction has an encoding: its packed schema (R90, R93). -/
theorem encode_of_wellFormed {i : Instr} (h : i.WellFormed) : encode i = .ok (pack (schema i)) := by
  simp only [Instr.WellFormed, Instr.wellFormed, Bool.and_eq_true] at h
  simp [encode, h.1, schemaWidth_of_hasSchema i h.2]

/-- The words of an instruction statement: the one packed word of what the front end accepts, else the operand's failure. -/
theorem emit_op (symbols : SymbolTable) (a : Nat) (m : Mnemonic) (operands : List OperandToken) :
    (AsmStatement.mk (.op m) operands).emit symbols a =
      (assembleInstr symbols a m operands).map (fun i => [pack (schema i)]) := by
  simp only [AsmStatement.emit]
  cases h : assembleInstr symbols a m operands with
  | error e => rfl
  | ok i => rw [except_ok_bind, encode_of_wellFormed (assembleInstr_wellFormed h)]; rfl

/-- `x` fails, if at all, with `InvalidOperand`. -/
def OnlyInvalidOperand {α : Type} (x : Except EncodeError α) : Prop := ∀ e, x = .error e → e = .invalidOperand

/-- A sequence of two steps that fail only so fails only so. -/
theorem OnlyInvalidOperand.bind {α β : Type} {x : Except EncodeError α} {f : α → Except EncodeError β}
    (hx : OnlyInvalidOperand x) (hf : ∀ a, OnlyInvalidOperand (f a)) : OnlyInvalidOperand (x >>= f) := by
  cases x with
  | error e => exact fun _ h => hx _ (by cases h; rfl)
  | ok a => exact hf a

/-- A mapped step that fails only so fails only so. -/
theorem OnlyInvalidOperand.map {α β : Type} {x : Except EncodeError α} {f : α → β} (hx : OnlyInvalidOperand x) :
    OnlyInvalidOperand (x.map f) := by
  cases x with
  | error e => exact fun _ h => hx _ (by cases h; rfl)
  | ok a => exact nofun

/-- The operand readers fail only with `InvalidOperand` (R93, R95). -/
theorem onlyInvalidOperand_readers (k : Nat) (symbols : SymbolTable) (a : Nat) (t : OperandToken) :
    OnlyInvalidOperand t.asRegister ∧ OnlyInvalidOperand (t.asSigned k) ∧ OnlyInvalidOperand t.asVector ∧
      OnlyInvalidOperand (t.asOffset k symbols a) ∧ OnlyInvalidOperand t.asFill ∧ OnlyInvalidOperand t.asCount ∧
      OnlyInvalidOperand t.asString := by
  have hs : ∀ v, OnlyInvalidOperand (signedOperand k v) := by
    intro v e h; unfold signedOperand at h; split at h <;> cases h; rfl
  refine ⟨?_, ?_, ?_, ?_, ?_, ?_, ?_⟩ <;> cases t <;> intro e h
  all_goals first
    | (cases h <;> rfl)
    | exact hs _ e h
    | exact OnlyInvalidOperand.bind (x := lookupLabel symbols _)
        (fun e h => by unfold lookupLabel at h; split at h <;> cases h; rfl) (fun _ => hs _) e h
    | (change registerOperand _ = _ at h; unfold registerOperand at h; split at h <;> cases h; rfl)
    | (change vectorOperand _ = _ at h; unfold vectorOperand at h; split at h <;> cases h; rfl)
    | (simp only [OperandToken.asCount] at h; split at h <;> cases h; rfl)

/-- The front end fails only with `InvalidOperand`, never with `MalformedInstruction` (R95). -/
theorem assembleInstr_onlyInvalidOperand (symbols : SymbolTable) (a : Nat) (m : Mnemonic)
    (operands : List OperandToken) : OnlyInvalidOperand (assembleInstr symbols a m operands) := by
  have hr := fun t => (onlyInvalidOperand_readers 6 symbols a t).1
  have hv := fun t => (onlyInvalidOperand_readers 6 symbols a t).2.2.1
  have h6 := fun t => (onlyInvalidOperand_readers 6 symbols a t).2.1
  have ho := fun k t => (onlyInvalidOperand_readers k symbols a t).2.2.2.1
  have hadd : ∀ dr sr1 t, OnlyInvalidOperand (assembleAdd dr sr1 t) := by
    intro dr sr1 t
    cases t with
    | register n => exact .map (hr (.register n))
    | literal v => exact .map (onlyInvalidOperand_readers 5 symbols a (.literal v)).2.1
    | label _ | string _ | other => intro e h; cases h; rfl
  have hand : ∀ dr sr1 t, OnlyInvalidOperand (assembleAnd dr sr1 t) := by
    intro dr sr1 t
    cases t with
    | register n => exact .map (hr (.register n))
    | literal v => exact .map (onlyInvalidOperand_readers 5 symbols a (.literal v)).2.1
    | label _ | string _ | other => intro e h; cases h; rfl
  have hp : ∀ j : Instr, OnlyInvalidOperand (pure j) := fun j => nofun
  unfold assembleInstr
  split
  case h_18 => intro e h; cases h; rfl
  all_goals first
    | (intro e h; cases h)
    | exact .bind (hr _) fun _ => .bind (hr _) fun _ => hadd _ _ _
    | exact .bind (hr _) fun _ => .bind (hr _) fun _ => hand _ _ _
    | exact .bind (hr _) fun _ => .bind (hr _) fun _ => .bind (h6 _) fun _ => hp _
    | exact .bind (hr _) fun _ => .bind (hr _) fun _ => hp _
    | exact .bind (hr _) fun _ => .bind (ho _ _) fun _ => hp _
    | exact .bind (hr _) fun _ => hp _
    | exact .bind (ho _ _) fun _ => hp _
    | exact .bind (hv _) fun _ => hp _

/-- A statement fails only with `InvalidOperand`: "With the schemas of rule R91 `MalformedInstruction` cannot occur"
(R95). -/
theorem emit_onlyInvalidOperand (symbols : SymbolTable) (a : Nat) (st : AsmStatement) :
    OnlyInvalidOperand (st.emit symbols a) := by
  obtain ⟨head, operands⟩ := st
  cases head with
  | op m => rw [emit_op]; exact (assembleInstr_onlyInvalidOperand symbols a m operands).map
  | directive d =>
    have hr := fun t => (onlyInvalidOperand_readers 0 symbols a t).2.2.2.2
    change OnlyInvalidOperand (emitDirective d operands)
    unfold emitDirective
    split
    case h_1 => exact (hr _).1.map
    case h_2 => exact (hr _).2.1.map
    case h_3 => exact (hr _).2.2.map
    all_goals intro e h; cases h <;> rfl

/-- A statement that emits words leaves those before it and adds its own. -/
theorem Assembled.add_of_ok {symbols : SymbolTable} {i : Nat} {st : AsmStatement} {r : Assembled} {ws : List Word}
    (h : st.emit symbols r.words.length = .ok ws) : r.add symbols i st = { r with words := r.words ++ ws } := by
  simp [Assembled.add, h]

/-- A statement that fails leaves all words as they are and is recorded (R95). -/
theorem Assembled.add_of_error {symbols : SymbolTable} {i : Nat} {st : AsmStatement} {r : Assembled} {e : EncodeError}
    (h : st.emit symbols r.words.length = .error e) :
    r.add symbols i st = { r with failures := r.failures ++ [(i, e)] } := by
  simp [Assembled.add, h]

/-- No statement corrupts previously encoded words (R95). -/
theorem Assembled.add_prefix (symbols : SymbolTable) (i : Nat) (st : AsmStatement) (r : Assembled) :
    r.words <+: (r.add symbols i st).words := by
  unfold Assembled.add
  split
  · exact List.prefix_append _ _
  · exact List.prefix_rfl

/-- Whatever follows in a unit, the words encoded before it stay (R95). -/
theorem assembleAll_prefix (symbols : SymbolTable) (i : Nat) (sts : List AsmStatement) (r : Assembled) :
    r.words <+: (assembleAll symbols i sts r).words := by
  induction sts generalizing i r with
  | nil => exact List.prefix_rfl
  | cons st rest ih =>
    unfold assembleAll
    split
    · exact List.prefix_rfl
    · exact (r.add_prefix symbols i st).trans (ih (i + 1) _)

end Sys2Proof.Machine
end

