-- ==== Sys2Proof/Laws/Decode.lean ====
section
/-! SUPPORT. The decoder: when it fails, and what its fields look like. -/

namespace Sys2Proof.Machine

/-- Decoding fails exactly when the opcode is 1101 (R82). -/
theorem decode_eq_error_iff (w : Word) : decode w = .error .illegalInstruction ↔ opcodeOf w = 0b1101#4 := by
  constructor
  · intro h
    unfold decode at h
    split at h
    case h_16 =>
      clear h
      simp only [imp_false] at *
      bv_omega
    case h_2 | h_5 | h_6 => split at h <;> cases h
    all_goals cases h
  · intro h
    simp [decode, h]

/-- A sign-extended field lies in the range of its width (R76). -/
theorem fitsSigned_sext {k : Nat} (h : k ≤ 16) (v : BitVec k) : fitsSigned k (sext v) = true := by
  have hi := BitVec.toInt_signExtend_of_le (x := v) h
  have hlt := BitVec.toInt_lt (x := v)
  have hle := BitVec.le_toInt (x := v)
  simp only [fitsSigned, sext, hi, Bool.and_eq_true, decide_eq_true_eq]
  omega

/-- A word whose opcode is TRAP's decodes to TRAP with its low 8 bits (R200). -/
theorem decode_of_trap {w : Word} (h : opcodeOf w = 0b1111#4) : decode w = .ok (.trap (field w 7 8)) := by
  simp [decode, h]

/-- A vector that is no service's is refused by the dispatcher (R232). -/
theorem dispatchTrap_unsupported {v : Byte} (s : State) (h : v ∉ serviceVectors) :
    dispatchTrap v s = s.raiseError .unsupportedTrap := by
  simp only [serviceVectors, List.mem_cons, List.not_mem_nil, or_false, not_or] at h
  unfold dispatchTrap
  split <;> simp_all

end Sys2Proof.Machine
end

