-- ==== Sys2Proof/Laws/Encode.lean ====
section
/-! SUPPORT. Encoded words and decoded fields as numbers: a packed word is its fields in mixed radix, a field is a quotient
and a remainder, so that encoding facts become arithmetic. -/

namespace Sys2Proof.Machine

/-- A field as a quotient and a remainder (R12). -/
theorem field_toNat (w : Word) (p s : Nat) : (field w p s).toNat = w.toNat / 2 ^ (p + 1 - s) % 2 ^ s := by
  simp [field, Nat.shiftRight_eq_div_pow]

/-- One bit as a quotient and a remainder. -/
theorem getLsbD_eq_decide (w : Word) (i : Nat) : w.getLsbD i = decide (w.toNat / 2 ^ i % 2 = 1) := by
  rw [BitVec.getLsbD, Nat.testBit_eq_decide_div_mod_eq]

/-- The number a list of fields packs to: each field appended below those before it (R90). -/
def packNat (acc : Nat) : List SchemaField → Nat
  | [] => acc
  | f :: fs => packNat (acc * 2 ^ f.width + f.value.toNat % 2 ^ f.width) fs

/-- Packing one field, as a number (R90). -/
theorem packField_toNat {acc : Word} {f : SchemaField} {k : Nat} (hacc : acc.toNat < 2 ^ k) (hk : k + f.width ≤ 16) :
    (packField acc f).toNat = acc.toNat * 2 ^ f.width + f.value.toNat % 2 ^ f.width := by
  have hv : f.value.toNat % 2 ^ f.width < 2 ^ f.width := Nat.mod_lt _ (Nat.two_pow_pos _)
  have hw : 2 ^ f.width ≤ 2 ^ 16 := Nat.pow_le_pow_right (by omega) (by omega)
  have hsum : acc.toNat * 2 ^ f.width + 2 ^ f.width ≤ 2 ^ 16 := by
    have h1 : (acc.toNat + 1) * 2 ^ f.width ≤ 2 ^ k * 2 ^ f.width := Nat.mul_le_mul_right _ hacc
    have h2 : 2 ^ (k + f.width) ≤ 2 ^ 16 := Nat.pow_le_pow_right (by omega) hk
    rw [Nat.pow_add] at h2
    rw [Nat.add_mul, Nat.one_mul] at h1
    omega
  rw [packField, BitVec.toNat_or, BitVec.toNat_shiftLeft, BitVec.toNat_ofNat, Nat.shiftLeft_eq,
    Nat.mod_eq_of_lt (by omega : f.value.toNat % 2 ^ f.width < 2 ^ 16), Nat.mod_eq_of_lt (by omega),
    ← Nat.shiftLeft_eq, ← Nat.shiftLeft_add_eq_or_of_lt hv]

/-- A packed word as a number, for fields that fill at most 16 bits (R90). -/
theorem foldl_packField_toNat {fs : List SchemaField} {acc : Word} {k : Nat} (hacc : acc.toNat < 2 ^ k)
    (hk : k + schemaWidth fs ≤ 16) : (fs.foldl packField acc).toNat = packNat acc.toNat fs := by
  induction fs generalizing acc k with
  | nil => rfl
  | cons f fs ih =>
    simp only [schemaWidth, List.map_cons, List.sum_cons] at hk
    have hf := packField_toNat (f := f) hacc (by omega)
    rw [List.foldl_cons, packNat, ← hf]
    refine ih (k := k + f.width) ?_ (by simp only [schemaWidth]; omega)
    have hv : f.value.toNat % 2 ^ f.width < 2 ^ f.width := Nat.mod_lt _ (Nat.two_pow_pos _)
    rw [hf, Nat.pow_add]
    have h1 : (acc.toNat + 1) * 2 ^ f.width ≤ 2 ^ k * 2 ^ f.width := Nat.mul_le_mul_right _ hacc
    rw [Nat.add_mul, Nat.one_mul] at h1
    omega

/-- The word of a schema of 16 bits as a number (R90, R91). -/
theorem pack_toNat {fs : List SchemaField} (h : schemaWidth fs = 16) : (pack fs).toNat = packNat 0 fs :=
  foldl_packField_toNat (k := 0) (by simp) (by omega)

/-- A sign-extended field is the operand it was cut from, when the operand lies in the field's range (R13, R76). -/
theorem sext_eq_of_fits {k : Nat} (hk : 1 ≤ k) (hk' : k ≤ 16) {imm : Word} {v : BitVec k} (hf : fitsSigned k imm = true)
    (hv : v.toNat = imm.toNat % 2 ^ k) : sext v = imm := by
  simp only [fitsSigned, Bool.and_eq_true, decide_eq_true_eq] at hf
  have hp : (2 : Int) ^ k = 2 * 2 ^ (k - 1) := by
    rw [← pow_succ']
    congr 1
    omega
  have hdvd : ((2 ^ k : Nat) : Int) ∣ ((2 ^ 16 : Nat) : Int) := by
    exact_mod_cast Nat.pow_dvd_pow 2 hk'
  apply BitVec.eq_of_toInt_eq
  rw [sext, BitVec.toInt_signExtend_of_le hk', BitVec.toInt_eq_toNat_bmod, hv]
  have he : ((imm.toNat % 2 ^ k : Nat) : Int) = imm.toInt % ((2 ^ k : Nat) : Int) := by
    rw [BitVec.toInt_eq_toNat_bmod, Int.natCast_emod, Int.bmod_def]
    split
    · rw [Int.emod_emod_of_dvd _ hdvd]
    · rw [Int.sub_emod, Int.emod_emod_of_dvd _ hdvd, Int.emod_eq_zero_of_dvd hdvd]
      simp
  rw [he, Int.emod_bmod]
  apply Int.bmod_eq_of_le
  · push_cast
    omega
  · push_cast
    omega

end Sys2Proof.Machine
end

