-- ==== Sys2Proof/Laws/State.lean ====
section
/-! SUPPORT. One lemma per field per update of State, true by rfl, so that no later proof unfolds a record update. -/

namespace Sys2Proof.Machine

@[simp] theorem State.setReg_regs (s : State) (r : RegNum) (v : Word) : (s.setReg r v).regs = s.regs.set r v := rfl
@[simp] theorem State.setReg_pc (s : State) (r : RegNum) (v : Word) : (s.setReg r v).pc = s.pc := rfl
@[simp] theorem State.setReg_cc (s : State) (r : RegNum) (v : Word) : (s.setReg r v).cc = s.cc := rfl
@[simp] theorem State.setReg_mem (s : State) (r : RegNum) (v : Word) : (s.setReg r v).mem = s.mem := rfl
@[simp] theorem State.setReg_status (s : State) (r : RegNum) (v : Word) : (s.setReg r v).status = s.status := rfl
@[simp] theorem State.setReg_err (s : State) (r : RegNum) (v : Word) : (s.setReg r v).err = s.err := rfl
@[simp] theorem State.setReg_input (s : State) (r : RegNum) (v : Word) : (s.setReg r v).input = s.input := rfl
@[simp] theorem State.setReg_output (s : State) (r : RegNum) (v : Word) : (s.setReg r v).output = s.output := rfl
@[simp] theorem State.setReg_ir (s : State) (r : RegNum) (v : Word) : (s.setReg r v).ir = s.ir := rfl
@[simp] theorem State.setReg_fpc (s : State) (r : RegNum) (v : Word) : (s.setReg r v).fpc = s.fpc := rfl
@[simp] theorem State.setReg_hold (s : State) (r : RegNum) (v : Word) : (s.setReg r v).hold = s.hold := rfl
@[simp] theorem State.setReg_stopRequest (s : State) (r : RegNum) (v : Word) : (s.setReg r v).stopRequest = s.stopRequest := rfl
@[simp] theorem State.setReg_loaded (s : State) (r : RegNum) (v : Word) : (s.setReg r v).loaded = s.loaded := rfl
@[simp] theorem State.setReg_memRead (s : State) (r : RegNum) (v : Word) (x : Word) : (s.setReg r v).memRead x = s.memRead x := rfl

@[simp] theorem State.setPc_regs (s : State) (v : Word) : (s.setPc v).regs = s.regs := rfl
@[simp] theorem State.setPc_pc (s : State) (v : Word) : (s.setPc v).pc = v := rfl
@[simp] theorem State.setPc_cc (s : State) (v : Word) : (s.setPc v).cc = s.cc := rfl
@[simp] theorem State.setPc_mem (s : State) (v : Word) : (s.setPc v).mem = s.mem := rfl
@[simp] theorem State.setPc_status (s : State) (v : Word) : (s.setPc v).status = s.status := rfl
@[simp] theorem State.setPc_err (s : State) (v : Word) : (s.setPc v).err = s.err := rfl
@[simp] theorem State.setPc_input (s : State) (v : Word) : (s.setPc v).input = s.input := rfl
@[simp] theorem State.setPc_output (s : State) (v : Word) : (s.setPc v).output = s.output := rfl
@[simp] theorem State.setPc_ir (s : State) (v : Word) : (s.setPc v).ir = s.ir := rfl
@[simp] theorem State.setPc_fpc (s : State) (v : Word) : (s.setPc v).fpc = s.fpc := rfl
@[simp] theorem State.setPc_hold (s : State) (v : Word) : (s.setPc v).hold = s.hold := rfl
@[simp] theorem State.setPc_stopRequest (s : State) (v : Word) : (s.setPc v).stopRequest = s.stopRequest := rfl
@[simp] theorem State.setPc_loaded (s : State) (v : Word) : (s.setPc v).loaded = s.loaded := rfl
@[simp] theorem State.setPc_reg (s : State) (v : Word) (q : RegNum) : (s.setPc v).reg q = s.reg q := rfl
@[simp] theorem State.setPc_memRead (s : State) (v : Word) (x : Word) : (s.setPc v).memRead x = s.memRead x := rfl

@[simp] theorem State.memWrite_regs (s : State) (a v : Word) : (s.memWrite a v).regs = s.regs := rfl
@[simp] theorem State.memWrite_pc (s : State) (a v : Word) : (s.memWrite a v).pc = s.pc := rfl
@[simp] theorem State.memWrite_cc (s : State) (a v : Word) : (s.memWrite a v).cc = s.cc := rfl
@[simp] theorem State.memWrite_mem (s : State) (a v : Word) : (s.memWrite a v).mem = s.mem.write a.toNat v := rfl
@[simp] theorem State.memWrite_status (s : State) (a v : Word) : (s.memWrite a v).status = s.status := rfl
@[simp] theorem State.memWrite_err (s : State) (a v : Word) : (s.memWrite a v).err = s.err := rfl
@[simp] theorem State.memWrite_input (s : State) (a v : Word) : (s.memWrite a v).input = s.input := rfl
@[simp] theorem State.memWrite_output (s : State) (a v : Word) : (s.memWrite a v).output = s.output := rfl
@[simp] theorem State.memWrite_ir (s : State) (a v : Word) : (s.memWrite a v).ir = s.ir := rfl
@[simp] theorem State.memWrite_fpc (s : State) (a v : Word) : (s.memWrite a v).fpc = s.fpc := rfl
@[simp] theorem State.memWrite_hold (s : State) (a v : Word) : (s.memWrite a v).hold = s.hold := rfl
@[simp] theorem State.memWrite_stopRequest (s : State) (a v : Word) : (s.memWrite a v).stopRequest = s.stopRequest := rfl
@[simp] theorem State.memWrite_loaded (s : State) (a v : Word) : (s.memWrite a v).loaded = s.loaded := rfl
@[simp] theorem State.memWrite_reg (s : State) (a v : Word) (q : RegNum) : (s.memWrite a v).reg q = s.reg q := rfl

@[simp] theorem State.emit_regs (s : State) (cs : List Byte) : (s.emit cs).regs = s.regs := rfl
@[simp] theorem State.emit_pc (s : State) (cs : List Byte) : (s.emit cs).pc = s.pc := rfl
@[simp] theorem State.emit_cc (s : State) (cs : List Byte) : (s.emit cs).cc = s.cc := rfl
@[simp] theorem State.emit_mem (s : State) (cs : List Byte) : (s.emit cs).mem = s.mem := rfl
@[simp] theorem State.emit_status (s : State) (cs : List Byte) : (s.emit cs).status = s.status := rfl
@[simp] theorem State.emit_err (s : State) (cs : List Byte) : (s.emit cs).err = s.err := rfl
@[simp] theorem State.emit_input (s : State) (cs : List Byte) : (s.emit cs).input = s.input := rfl
@[simp] theorem State.emit_output (s : State) (cs : List Byte) : (s.emit cs).output = s.output ++ cs := rfl
@[simp] theorem State.emit_ir (s : State) (cs : List Byte) : (s.emit cs).ir = s.ir := rfl
@[simp] theorem State.emit_fpc (s : State) (cs : List Byte) : (s.emit cs).fpc = s.fpc := rfl
@[simp] theorem State.emit_hold (s : State) (cs : List Byte) : (s.emit cs).hold = s.hold := rfl
@[simp] theorem State.emit_stopRequest (s : State) (cs : List Byte) : (s.emit cs).stopRequest = s.stopRequest := rfl
@[simp] theorem State.emit_loaded (s : State) (cs : List Byte) : (s.emit cs).loaded = s.loaded := rfl
@[simp] theorem State.emit_reg (s : State) (cs : List Byte) (q : RegNum) : (s.emit cs).reg q = s.reg q := rfl
@[simp] theorem State.emit_memRead (s : State) (cs : List Byte) (x : Word) : (s.emit cs).memRead x = s.memRead x := rfl

@[simp] theorem State.dropInput_regs (s : State) : (s.dropInput).regs = s.regs := rfl
@[simp] theorem State.dropInput_pc (s : State) : (s.dropInput).pc = s.pc := rfl
@[simp] theorem State.dropInput_cc (s : State) : (s.dropInput).cc = s.cc := rfl
@[simp] theorem State.dropInput_mem (s : State) : (s.dropInput).mem = s.mem := rfl
@[simp] theorem State.dropInput_status (s : State) : (s.dropInput).status = s.status := rfl
@[simp] theorem State.dropInput_err (s : State) : (s.dropInput).err = s.err := rfl
@[simp] theorem State.dropInput_input (s : State) : (s.dropInput).input = s.input.tail := rfl
@[simp] theorem State.dropInput_output (s : State) : (s.dropInput).output = s.output := rfl
@[simp] theorem State.dropInput_ir (s : State) : (s.dropInput).ir = s.ir := rfl
@[simp] theorem State.dropInput_fpc (s : State) : (s.dropInput).fpc = s.fpc := rfl
@[simp] theorem State.dropInput_hold (s : State) : (s.dropInput).hold = s.hold := rfl
@[simp] theorem State.dropInput_stopRequest (s : State) : (s.dropInput).stopRequest = s.stopRequest := rfl
@[simp] theorem State.dropInput_loaded (s : State) : (s.dropInput).loaded = s.loaded := rfl
@[simp] theorem State.dropInput_reg (s : State) (q : RegNum) : (s.dropInput).reg q = s.reg q := rfl
@[simp] theorem State.dropInput_memRead (s : State) (x : Word) : (s.dropInput).memRead x = s.memRead x := rfl

@[simp] theorem State.setHold_regs (s : State) (h : Option Hold) : (s.setHold h).regs = s.regs := rfl
@[simp] theorem State.setHold_pc (s : State) (h : Option Hold) : (s.setHold h).pc = s.pc := rfl
@[simp] theorem State.setHold_cc (s : State) (h : Option Hold) : (s.setHold h).cc = s.cc := rfl
@[simp] theorem State.setHold_mem (s : State) (h : Option Hold) : (s.setHold h).mem = s.mem := rfl
@[simp] theorem State.setHold_status (s : State) (h : Option Hold) : (s.setHold h).status = s.status := rfl
@[simp] theorem State.setHold_err (s : State) (h : Option Hold) : (s.setHold h).err = s.err := rfl
@[simp] theorem State.setHold_input (s : State) (h : Option Hold) : (s.setHold h).input = s.input := rfl
@[simp] theorem State.setHold_output (s : State) (h : Option Hold) : (s.setHold h).output = s.output := rfl
@[simp] theorem State.setHold_ir (s : State) (h : Option Hold) : (s.setHold h).ir = s.ir := rfl
@[simp] theorem State.setHold_fpc (s : State) (h : Option Hold) : (s.setHold h).fpc = s.fpc := rfl
@[simp] theorem State.setHold_hold (s : State) (h : Option Hold) : (s.setHold h).hold = h := rfl
@[simp] theorem State.setHold_stopRequest (s : State) (h : Option Hold) : (s.setHold h).stopRequest = s.stopRequest := rfl
@[simp] theorem State.setHold_loaded (s : State) (h : Option Hold) : (s.setHold h).loaded = s.loaded := rfl
@[simp] theorem State.setHold_reg (s : State) (h : Option Hold) (q : RegNum) : (s.setHold h).reg q = s.reg q := rfl
@[simp] theorem State.setHold_memRead (s : State) (h : Option Hold) (x : Word) : (s.setHold h).memRead x = s.memRead x := rfl

@[simp] theorem State.halt_regs (s : State) : (s.halt).regs = s.regs := rfl
@[simp] theorem State.halt_pc (s : State) : (s.halt).pc = s.pc := rfl
@[simp] theorem State.halt_cc (s : State) : (s.halt).cc = s.cc := rfl
@[simp] theorem State.halt_mem (s : State) : (s.halt).mem = s.mem := rfl
@[simp] theorem State.halt_status (s : State) : (s.halt).status = .halted := rfl
@[simp] theorem State.halt_err (s : State) : (s.halt).err = s.err := rfl
@[simp] theorem State.halt_input (s : State) : (s.halt).input = s.input := rfl
@[simp] theorem State.halt_output (s : State) : (s.halt).output = s.output := rfl
@[simp] theorem State.halt_ir (s : State) : (s.halt).ir = s.ir := rfl
@[simp] theorem State.halt_fpc (s : State) : (s.halt).fpc = s.fpc := rfl
@[simp] theorem State.halt_hold (s : State) : (s.halt).hold = s.hold := rfl
@[simp] theorem State.halt_stopRequest (s : State) : (s.halt).stopRequest = s.stopRequest := rfl
@[simp] theorem State.halt_loaded (s : State) : (s.halt).loaded = s.loaded := rfl
@[simp] theorem State.halt_reg (s : State) (q : RegNum) : (s.halt).reg q = s.reg q := rfl
@[simp] theorem State.halt_memRead (s : State) (x : Word) : (s.halt).memRead x = s.memRead x := rfl

@[simp] theorem State.raiseError_regs (s : State) (k : ErrorKind) : (s.raiseError k).regs = s.regs := rfl
@[simp] theorem State.raiseError_pc (s : State) (k : ErrorKind) : (s.raiseError k).pc = s.pc := rfl
@[simp] theorem State.raiseError_cc (s : State) (k : ErrorKind) : (s.raiseError k).cc = s.cc := rfl
@[simp] theorem State.raiseError_mem (s : State) (k : ErrorKind) : (s.raiseError k).mem = s.mem := rfl
@[simp] theorem State.raiseError_status (s : State) (k : ErrorKind) : (s.raiseError k).status = .faulted := rfl
@[simp] theorem State.raiseError_err (s : State) (k : ErrorKind) : (s.raiseError k).err = some ⟨k, s.fpc, s.ir⟩ := rfl
@[simp] theorem State.raiseError_input (s : State) (k : ErrorKind) : (s.raiseError k).input = s.input := rfl
@[simp] theorem State.raiseError_output (s : State) (k : ErrorKind) : (s.raiseError k).output = s.output := rfl
@[simp] theorem State.raiseError_ir (s : State) (k : ErrorKind) : (s.raiseError k).ir = s.ir := rfl
@[simp] theorem State.raiseError_fpc (s : State) (k : ErrorKind) : (s.raiseError k).fpc = s.fpc := rfl
@[simp] theorem State.raiseError_hold (s : State) (k : ErrorKind) : (s.raiseError k).hold = s.hold := rfl
@[simp] theorem State.raiseError_stopRequest (s : State) (k : ErrorKind) : (s.raiseError k).stopRequest = s.stopRequest := rfl
@[simp] theorem State.raiseError_loaded (s : State) (k : ErrorKind) : (s.raiseError k).loaded = s.loaded := rfl
@[simp] theorem State.raiseError_reg (s : State) (k : ErrorKind) (q : RegNum) : (s.raiseError k).reg q = s.reg q := rfl
@[simp] theorem State.raiseError_memRead (s : State) (k : ErrorKind) (x : Word) : (s.raiseError k).memRead x = s.memRead x := rfl

@[simp] theorem State.resumeAfterError_regs (s : State) : (s.resumeAfterError).regs = s.regs := rfl
@[simp] theorem State.resumeAfterError_pc (s : State) : (s.resumeAfterError).pc = s.pc := rfl
@[simp] theorem State.resumeAfterError_cc (s : State) : (s.resumeAfterError).cc = s.cc := rfl
@[simp] theorem State.resumeAfterError_mem (s : State) : (s.resumeAfterError).mem = s.mem := rfl
@[simp] theorem State.resumeAfterError_status (s : State) : (s.resumeAfterError).status = .running := rfl
@[simp] theorem State.resumeAfterError_err (s : State) : (s.resumeAfterError).err = s.err := rfl
@[simp] theorem State.resumeAfterError_input (s : State) : (s.resumeAfterError).input = s.input := rfl
@[simp] theorem State.resumeAfterError_output (s : State) : (s.resumeAfterError).output = s.output := rfl
@[simp] theorem State.resumeAfterError_ir (s : State) : (s.resumeAfterError).ir = s.ir := rfl
@[simp] theorem State.resumeAfterError_fpc (s : State) : (s.resumeAfterError).fpc = s.fpc := rfl
@[simp] theorem State.resumeAfterError_hold (s : State) : (s.resumeAfterError).hold = s.hold := rfl
@[simp] theorem State.resumeAfterError_stopRequest (s : State) : (s.resumeAfterError).stopRequest = s.stopRequest := rfl
@[simp] theorem State.resumeAfterError_loaded (s : State) : (s.resumeAfterError).loaded = s.loaded := rfl
@[simp] theorem State.resumeAfterError_reg (s : State) (q : RegNum) : (s.resumeAfterError).reg q = s.reg q := rfl
@[simp] theorem State.resumeAfterError_memRead (s : State) (x : Word) : (s.resumeAfterError).memRead x = s.memRead x := rfl

@[simp] theorem State.setcc_regs (s : State) (v : Word) : (s.setcc v).regs = s.regs := rfl
@[simp] theorem State.setcc_pc (s : State) (v : Word) : (s.setcc v).pc = s.pc := rfl
@[simp] theorem State.setcc_cc (s : State) (v : Word) : (s.setcc v).cc = flagsOf v := rfl
@[simp] theorem State.setcc_mem (s : State) (v : Word) : (s.setcc v).mem = s.mem := rfl
@[simp] theorem State.setcc_status (s : State) (v : Word) : (s.setcc v).status = s.status := rfl
@[simp] theorem State.setcc_err (s : State) (v : Word) : (s.setcc v).err = s.err := rfl
@[simp] theorem State.setcc_input (s : State) (v : Word) : (s.setcc v).input = s.input := rfl
@[simp] theorem State.setcc_output (s : State) (v : Word) : (s.setcc v).output = s.output := rfl
@[simp] theorem State.setcc_ir (s : State) (v : Word) : (s.setcc v).ir = s.ir := rfl
@[simp] theorem State.setcc_fpc (s : State) (v : Word) : (s.setcc v).fpc = s.fpc := rfl
@[simp] theorem State.setcc_hold (s : State) (v : Word) : (s.setcc v).hold = s.hold := rfl
@[simp] theorem State.setcc_stopRequest (s : State) (v : Word) : (s.setcc v).stopRequest = s.stopRequest := rfl
@[simp] theorem State.setcc_loaded (s : State) (v : Word) : (s.setcc v).loaded = s.loaded := rfl
@[simp] theorem State.setcc_reg (s : State) (v : Word) (q : RegNum) : (s.setcc v).reg q = s.reg q := rfl
@[simp] theorem State.setcc_memRead (s : State) (v : Word) (x : Word) : (s.setcc v).memRead x = s.memRead x := rfl

@[simp] theorem State.writeResult_regs (s : State) (dr : RegNum) (v : Word) : (s.writeResult dr v).regs = s.regs.set dr v := rfl
@[simp] theorem State.writeResult_pc (s : State) (dr : RegNum) (v : Word) : (s.writeResult dr v).pc = s.pc := rfl
@[simp] theorem State.writeResult_cc (s : State) (dr : RegNum) (v : Word) : (s.writeResult dr v).cc = flagsOf v := rfl
@[simp] theorem State.writeResult_mem (s : State) (dr : RegNum) (v : Word) : (s.writeResult dr v).mem = s.mem := rfl
@[simp] theorem State.writeResult_status (s : State) (dr : RegNum) (v : Word) : (s.writeResult dr v).status = s.status := rfl
@[simp] theorem State.writeResult_err (s : State) (dr : RegNum) (v : Word) : (s.writeResult dr v).err = s.err := rfl
@[simp] theorem State.writeResult_input (s : State) (dr : RegNum) (v : Word) : (s.writeResult dr v).input = s.input := rfl
@[simp] theorem State.writeResult_output (s : State) (dr : RegNum) (v : Word) : (s.writeResult dr v).output = s.output := rfl
@[simp] theorem State.writeResult_ir (s : State) (dr : RegNum) (v : Word) : (s.writeResult dr v).ir = s.ir := rfl
@[simp] theorem State.writeResult_fpc (s : State) (dr : RegNum) (v : Word) : (s.writeResult dr v).fpc = s.fpc := rfl
@[simp] theorem State.writeResult_hold (s : State) (dr : RegNum) (v : Word) : (s.writeResult dr v).hold = s.hold := rfl
@[simp] theorem State.writeResult_stopRequest (s : State) (dr : RegNum) (v : Word) : (s.writeResult dr v).stopRequest = s.stopRequest := rfl
@[simp] theorem State.writeResult_loaded (s : State) (dr : RegNum) (v : Word) : (s.writeResult dr v).loaded = s.loaded := rfl
@[simp] theorem State.writeResult_memRead (s : State) (dr : RegNum) (v : Word) (x : Word) : (s.writeResult dr v).memRead x = s.memRead x := rfl

@[simp] theorem fetch_regs (s : State) : (fetch s).regs = s.regs := rfl
@[simp] theorem fetch_pc (s : State) : (fetch s).pc = aluAdd s.pc 1#16 := rfl
@[simp] theorem fetch_cc (s : State) : (fetch s).cc = s.cc := rfl
@[simp] theorem fetch_mem (s : State) : (fetch s).mem = s.mem := rfl
@[simp] theorem fetch_status (s : State) : (fetch s).status = s.status := rfl
@[simp] theorem fetch_err (s : State) : (fetch s).err = s.err := rfl
@[simp] theorem fetch_input (s : State) : (fetch s).input = s.input := rfl
@[simp] theorem fetch_output (s : State) : (fetch s).output = s.output := rfl
@[simp] theorem fetch_ir (s : State) : (fetch s).ir = s.memRead s.pc := rfl
@[simp] theorem fetch_fpc (s : State) : (fetch s).fpc = s.pc := rfl
@[simp] theorem fetch_hold (s : State) : (fetch s).hold = s.hold := rfl
@[simp] theorem fetch_stopRequest (s : State) : (fetch s).stopRequest = s.stopRequest := rfl
@[simp] theorem fetch_loaded (s : State) : (fetch s).loaded = s.loaded := rfl
@[simp] theorem fetch_reg (s : State) (q : RegNum) : (fetch s).reg q = s.reg q := rfl
@[simp] theorem fetch_memRead (s : State) (x : Word) : (fetch s).memRead x = s.memRead x := rfl

@[simp] theorem honourStop_regs (s : State) : (honourStop s).regs = s.regs := rfl
@[simp] theorem honourStop_pc (s : State) : (honourStop s).pc = s.pc := rfl
@[simp] theorem honourStop_cc (s : State) : (honourStop s).cc = s.cc := rfl
@[simp] theorem honourStop_mem (s : State) : (honourStop s).mem = s.mem := rfl
@[simp] theorem honourStop_status (s : State) : (honourStop s).status = .stopped := rfl
@[simp] theorem honourStop_err (s : State) : (honourStop s).err = s.err := rfl
@[simp] theorem honourStop_input (s : State) : (honourStop s).input = s.input := rfl
@[simp] theorem honourStop_output (s : State) : (honourStop s).output = s.output := rfl
@[simp] theorem honourStop_ir (s : State) : (honourStop s).ir = s.ir := rfl
@[simp] theorem honourStop_fpc (s : State) : (honourStop s).fpc = s.fpc := rfl
@[simp] theorem honourStop_hold (s : State) : (honourStop s).hold = s.hold := rfl
@[simp] theorem honourStop_stopRequest (s : State) : (honourStop s).stopRequest = s.stopRequest := rfl
@[simp] theorem honourStop_loaded (s : State) : (honourStop s).loaded = s.loaded := rfl
@[simp] theorem honourStop_reg (s : State) (q : RegNum) : (honourStop s).reg q = s.reg q := rfl
@[simp] theorem honourStop_memRead (s : State) (x : Word) : (honourStop s).memRead x = s.memRead x := rfl

@[simp] theorem startCore_regs (s : State) : (startCore s).regs = s.regs := rfl
@[simp] theorem startCore_pc (s : State) : (startCore s).pc = s.pc := rfl
@[simp] theorem startCore_cc (s : State) : (startCore s).cc = s.cc := rfl
@[simp] theorem startCore_mem (s : State) : (startCore s).mem = s.mem := rfl
@[simp] theorem startCore_status (s : State) : (startCore s).status = .running := rfl
@[simp] theorem startCore_err (s : State) : (startCore s).err = s.err := rfl
@[simp] theorem startCore_input (s : State) : (startCore s).input = s.input := rfl
@[simp] theorem startCore_output (s : State) : (startCore s).output = s.output := rfl
@[simp] theorem startCore_ir (s : State) : (startCore s).ir = s.ir := rfl
@[simp] theorem startCore_fpc (s : State) : (startCore s).fpc = s.fpc := rfl
@[simp] theorem startCore_hold (s : State) : (startCore s).hold = s.hold := rfl
@[simp] theorem startCore_stopRequest (s : State) : (startCore s).stopRequest = false := rfl
@[simp] theorem startCore_loaded (s : State) : (startCore s).loaded = s.loaded := rfl
@[simp] theorem startCore_reg (s : State) (q : RegNum) : (startCore s).reg q = s.reg q := rfl
@[simp] theorem startCore_memRead (s : State) (x : Word) : (startCore s).memRead x = s.memRead x := rfl

@[simp] theorem loadImage_regs (origin : Word) (words : List Word) (s : State) : (loadImage origin words s).regs = s.regs := rfl
@[simp] theorem loadImage_pc (origin : Word) (words : List Word) (s : State) : (loadImage origin words s).pc = origin := rfl
@[simp] theorem loadImage_cc (origin : Word) (words : List Word) (s : State) : (loadImage origin words s).cc = s.cc := rfl
@[simp] theorem loadImage_mem (origin : Word) (words : List Word) (s : State) : (loadImage origin words s).mem = s.mem.load origin words := rfl
@[simp] theorem loadImage_status (origin : Word) (words : List Word) (s : State) : (loadImage origin words s).status = s.status := rfl
@[simp] theorem loadImage_err (origin : Word) (words : List Word) (s : State) : (loadImage origin words s).err = s.err := rfl
@[simp] theorem loadImage_input (origin : Word) (words : List Word) (s : State) : (loadImage origin words s).input = s.input := rfl
@[simp] theorem loadImage_output (origin : Word) (words : List Word) (s : State) : (loadImage origin words s).output = s.output := rfl
@[simp] theorem loadImage_ir (origin : Word) (words : List Word) (s : State) : (loadImage origin words s).ir = s.ir := rfl
@[simp] theorem loadImage_fpc (origin : Word) (words : List Word) (s : State) : (loadImage origin words s).fpc = s.fpc := rfl
@[simp] theorem loadImage_hold (origin : Word) (words : List Word) (s : State) : (loadImage origin words s).hold = s.hold := rfl
@[simp] theorem loadImage_stopRequest (origin : Word) (words : List Word) (s : State) : (loadImage origin words s).stopRequest = s.stopRequest := rfl
@[simp] theorem loadImage_loaded (origin : Word) (words : List Word) (s : State) : (loadImage origin words s).loaded = true := rfl
@[simp] theorem loadImage_reg (origin : Word) (words : List Word) (s : State) (q : RegNum) : (loadImage origin words s).reg q = s.reg q := rfl

/-- A register after a register write. -/
@[simp] theorem State.setReg_reg (s : State) (r : RegNum) (v : Word) (q : RegNum) :
    (s.setReg r v).reg q = if r = q then v else s.reg q := by
  simp [State.reg, State.setReg, Vector.getElem_set, Fin.ext_iff]

/-- A register after a result is written. -/
@[simp] theorem State.writeResult_reg (s : State) (dr : RegNum) (v : Word) (q : RegNum) :
    (s.writeResult dr v).reg q = if dr = q then v else s.reg q :=
  State.setReg_reg s dr v q

/-- Two register files that read alike are equal. -/
theorem State.regs_ext {s t : State} (h : ∀ r, t.reg r = s.reg r) : t.regs = s.regs := by
  apply Vector.ext
  intro i hi
  exact h ⟨i, hi⟩

end Sys2Proof.Machine
end

