-- ==== Sys2Proof/Laws/Memory.lean ====
section
/-! SUPPORT. Memory: what a read gives after a write, that every memory operation keeps the canonical form, and that
canonical memories which read alike are equal. -/

namespace Sys2Proof.Machine

/-- A write leaves every other address alone (R53), whatever the list. -/
theorem Memory.read_write_other (m : Memory) {a b : Nat} (v : Word) (h : a ≠ b) :
    (m.write a v).read b = m.read b := by
  induction m with
  | nil =>
    unfold Memory.write
    split <;> simp [Memory.read, h]
  | cons c rest ih =>
    obtain ⟨k, w⟩ := c
    unfold Memory.write
    split
    · split <;> simp [Memory.read, h]
    · split
      · rename_i hk
        subst hk
        split <;> simp [Memory.read, h]
      · simp only [Memory.read, ih]

/-- Below the least address of a canonical list nothing is listed. -/
theorem Memory.read_below {m : Memory} {lo a : Nat} (h : m.wfFrom lo = true) (ha : a < lo) :
    m.read a = Memory.unlisted := by
  induction m generalizing lo with
  | nil => rfl
  | cons c rest ih =>
    obtain ⟨k, w⟩ := c
    simp only [Memory.wfFrom, Bool.and_eq_true, decide_eq_true_eq] at h
    have hk : k ≠ a := by omega
    simp only [Memory.read, hk, if_false]
    exact ih h.2 (by omega)

/-- A bound on a canonical list's addresses may be lowered. -/
theorem Memory.wfFrom_mono {m : Memory} {lo lo' : Nat} (h : m.wfFrom lo = true) (hlo : lo' ≤ lo) :
    m.wfFrom lo' = true := by
  cases m with
  | nil => rfl
  | cons c rest =>
    obtain ⟨k, w⟩ := c
    simp only [Memory.wfFrom, Bool.and_eq_true, decide_eq_true_eq] at h ⊢
    exact ⟨⟨⟨by omega, h.1.1.2⟩, h.1.2⟩, h.2⟩

/-- A write keeps the canonical form. -/
theorem Memory.wfFrom_write {m : Memory} {lo a : Nat} (v : Word) (h : m.wfFrom lo = true) (hlo : lo ≤ a)
    (ha : a < 65536) : (m.write a v).wfFrom lo = true := by
  induction m generalizing lo with
  | nil =>
    unfold Memory.write
    split <;> simp_all [Memory.wfFrom]
  | cons c rest ih =>
    obtain ⟨k, w⟩ := c
    have h' := h
    simp only [Memory.wfFrom, Bool.and_eq_true, decide_eq_true_eq] at h'
    obtain ⟨⟨⟨hk, hk'⟩, hw⟩, hrest⟩ := h'
    unfold Memory.write
    split
    · split
      · exact h
      · simp only [Memory.wfFrom, Bool.and_eq_true, decide_eq_true_eq]
        exact ⟨⟨⟨hlo, ha⟩, by assumption⟩, ⟨⟨by omega, hk'⟩, hw⟩, hrest⟩
    · split
      · rename_i hak
        subst hak
        split
        · exact Memory.wfFrom_mono hrest (by omega)
        · simp only [Memory.wfFrom, Bool.and_eq_true, decide_eq_true_eq]
          exact ⟨⟨⟨hlo, ha⟩, by assumption⟩, hrest⟩
      · simp only [Memory.wfFrom, Bool.and_eq_true, decide_eq_true_eq]
        exact ⟨⟨⟨hk, hk'⟩, hw⟩, ih hrest (by omega)⟩

/-- A write keeps the canonical form of the whole memory. -/
theorem Memory.wf_write {m : Memory} {a : Nat} (v : Word) (h : m.wf = true) (ha : a < 65536) :
    (m.write a v).wf = true :=
  Memory.wfFrom_write v h (Nat.zero_le a) ha

/-- In a canonical memory a read after a write to the same address gives the value written (R53). -/
theorem Memory.read_write_same {m : Memory} {lo : Nat} (a : Nat) (v : Word) (h : m.wfFrom lo = true) :
    (m.write a v).read a = v := by
  induction m generalizing lo with
  | nil =>
    unfold Memory.write
    split <;> simp_all [Memory.read]
  | cons c rest ih =>
    obtain ⟨k, w⟩ := c
    have h' := h
    simp only [Memory.wfFrom, Bool.and_eq_true, decide_eq_true_eq] at h'
    unfold Memory.write
    split
    · rename_i hak
      split
      · rename_i hv
        rw [hv]
        exact Memory.read_below (lo := k)
          (by simp only [Memory.wfFrom, Bool.and_eq_true, decide_eq_true_eq]
              exact ⟨⟨⟨Nat.le_refl k, h'.1.1.2⟩, h'.1.2⟩, h'.2⟩) hak
      · simp [Memory.read]
    · split
      · rename_i hak
        subst hak
        split
        · rename_i hv
          rw [hv]
          exact Memory.read_below h'.2 (Nat.lt_succ_self a)
        · simp [Memory.read]
      · rename_i hak
        simp only [Memory.read, Ne.symm hak, if_false]
        exact ih h'.2

/-- Canonical memories that read alike at every address of the machine are equal data. -/
theorem Memory.wfFrom_ext {m m' : Memory} {lo : Nat} (h : m.wfFrom lo = true) (h' : m'.wfFrom lo = true)
    (hr : ∀ a, a < 65536 → m.read a = m'.read a) : m = m' := by
  induction m generalizing m' lo with
  | nil =>
    cases m' with
    | nil => rfl
    | cons c rest =>
      obtain ⟨k, w⟩ := c
      simp only [Memory.wfFrom, Bool.and_eq_true, decide_eq_true_eq] at h'
      have := hr k h'.1.1.2
      simp only [Memory.read, if_true] at this
      exact absurd this.symm h'.1.2
  | cons c rest ih =>
    obtain ⟨k, w⟩ := c
    have hm := h
    simp only [Memory.wfFrom, Bool.and_eq_true, decide_eq_true_eq] at h
    cases m' with
    | nil =>
      have := hr k h.1.1.2
      simp only [Memory.read, if_true] at this
      exact absurd this h.1.2
    | cons c' rest' =>
      obtain ⟨k', w'⟩ := c'
      have hm' := h'
      simp only [Memory.wfFrom, Bool.and_eq_true, decide_eq_true_eq] at h'
      have hk : k = k' := by
        rcases Nat.lt_trichotomy k k' with hlt | heq | hgt
        · have := hr k h.1.1.2
          rw [Memory.read, if_pos rfl, Memory.read, if_neg (by omega), Memory.read_below h'.2 (by omega)] at this
          exact absurd this h.1.2
        · exact heq
        · have := hr k' h'.1.1.2
          rw [Memory.read, if_neg (by omega), Memory.read_below h.2 (by omega), Memory.read, if_pos rfl] at this
          exact absurd this.symm h'.1.2
      subst hk
      have hw : w = w' := by
        have := hr k h.1.1.2
        simpa [Memory.read] using this
      subst hw
      congr 1
      refine ih h.2 h'.2 fun a ha => ?_
      have := hr a ha
      by_cases hka : k = a
      · subst hka
        rw [Memory.read_below h.2 (Nat.lt_succ_self k), Memory.read_below h'.2 (Nat.lt_succ_self k)]
      · simpa [Memory.read, hka] using this

/-- An image load keeps the canonical form (R262). -/
theorem Memory.wf_load {m : Memory} (origin : Word) (ws : List Word) (h : m.wf = true) :
    (m.load origin ws).wf = true := by
  induction ws generalizing m origin with
  | nil => exact h
  | cons w ws ih => exact ih _ (Memory.wf_write w h origin.isLt)

/-- A store read back at its own address, in a state whose memory is canonical (R53). -/
theorem State.memRead_memWrite_same {s : State} (h : s.mem.wf = true) (a v : Word) :
    (s.memWrite a v).memRead a = v :=
  Memory.read_write_same a.toNat v h

/-- A store leaves every other word alone (R53). -/
theorem State.memRead_memWrite_other (s : State) {a b : Word} (v : Word) (h : a ≠ b) :
    (s.memWrite a v).memRead b = s.memRead b :=
  Memory.read_write_other s.mem v fun hab => h (BitVec.eq_of_toNat_eq hab)

/-- An image of `ws` at `origin` leaves alone every address outside it (R262). -/
theorem Memory.read_load_outside (m : Memory) (origin : Word) (ws : List Word) (b : Word)
    (h : ∀ k, k < ws.length → origin + BitVec.ofNat 16 k ≠ b) : (m.load origin ws).read b.toNat = m.read b.toNat := by
  induction ws generalizing m origin with
  | nil => rfl
  | cons w ws ih =>
    have h0 : origin ≠ b := by simpa using h 0 (by simp)
    rw [Memory.load, ih]
    · exact Memory.read_write_other m w fun hab => h0 (BitVec.eq_of_toNat_eq hab)
    · intro k hk
      have := h (k + 1) (by simpa using hk)
      rwa [show origin + 1#16 + BitVec.ofNat 16 k = origin + BitVec.ofNat 16 (k + 1) by
        rw [BitVec.add_assoc]
        congr 1
        apply BitVec.eq_of_toNat_eq
        simp
        omega]

end Sys2Proof.Machine
end

