-- ==== Sys2Proof/Laws/Services.lean ====
section
/-! SUPPORT. The flag computation, the string scan of PUTS and PUTSP, and what each service answers. -/

namespace Sys2Proof.Machine

/-- `setcc` leaves exactly one flag true (R28). -/
theorem flagsOf_exactlyOne (v : Word) : (flagsOf v).ExactlyOne := by
  unfold Flags.ExactlyOne Flags.AtMostOne flagsOf
  by_cases hz : v = 0#16
  · subst hz; simp
  · cases hn : v.getLsbD 15 <;> simp [hz]

/-- Addresses counted on from `a + 1` are those counted on from `a`, one later. -/
theorem word_add_one_add (a : Word) (k : Nat) :
    aluAdd a 1#16 + BitVec.ofNat 16 k = a + BitVec.ofNat 16 (k + 1) := by
  rw [aluAdd, BitVec.add_assoc]
  congr 1
  apply BitVec.eq_of_toNat_eq
  simp
  omega

/-- The scan finds the first zero word within its reach, and only that. -/
theorem scanString_eq_some {s : State} {a : Word} {fuel n : Nat} :
    scanString s a fuel = some n ↔
      n < fuel ∧ (∀ i, i < n → s.memRead (a + BitVec.ofNat 16 i) ≠ 0#16) ∧
        s.memRead (a + BitVec.ofNat 16 n) = 0#16 := by
  induction fuel generalizing a n with
  | zero => simp [scanString]
  | succ fuel ih =>
    unfold scanString
    by_cases h0 : s.memRead a = 0#16
    · rw [if_pos h0]
      constructor
      · rintro ⟨⟩
        simpa using h0
      · rintro ⟨-, hne, -⟩
        cases n with
        | zero => rfl
        | succ n => exact absurd (by simpa using h0) (hne 0 (Nat.succ_pos n))
    · rw [if_neg h0]
      cases n with
      | zero => simpa using h0
      | succ n =>
        simp only [Option.map_eq_some_iff, Nat.add_right_cancel_iff, exists_eq_right, ih, word_add_one_add,
          Nat.add_lt_add_iff_right]
        constructor
        · rintro ⟨hn, hne, hz⟩
          refine ⟨hn, fun i hi => ?_, hz⟩
          cases i with
          | zero => simpa using h0
          | succ i => exact hne i (by omega)
        · rintro ⟨hn, hne, hz⟩
          exact ⟨hn, fun i hi => hne (i + 1) (by omega), hz⟩

/-- The scan finds nothing exactly when no word within its reach is zero. -/
theorem scanString_eq_none {s : State} {a : Word} {fuel : Nat} :
    scanString s a fuel = none ↔ ∀ i, i < fuel → s.memRead (a + BitVec.ofNat 16 i) ≠ 0#16 := by
  induction fuel generalizing a with
  | zero => simp [scanString]
  | succ fuel ih =>
    unfold scanString
    by_cases h0 : s.memRead a = 0#16
    · rw [if_pos h0]
      constructor
      · rintro ⟨⟩
      · intro h
        exact absurd (by simpa using h0) (h 0 (Nat.succ_pos fuel))
    · rw [if_neg h0, Option.map_eq_none_iff, ih]
      simp only [word_add_one_add]
      constructor
      · intro h i hi
        cases i with
        | zero => simpa using h0
        | succ i => exact h i (by omega)
      · intro h i hi
        exact h (i + 1) (by omega)

/-- Every address is reached from `a` in fewer than 65536 steps upward (R51). -/
theorem word_reached (a b : Word) : ∃ i, i < 65536 ∧ a + BitVec.ofNat 16 i = b := by
  refine ⟨(b - a).toNat, (b - a).isLt, ?_⟩
  rw [BitVec.ofNat_toNat, BitVec.setWidth_eq, BitVec.add_comm, BitVec.sub_add_cancel]

/-- The scan of the whole memory finds nothing exactly when no word of memory is zero (R125). -/
theorem stringLength_eq_none {s : State} : stringLength s = none ↔ ∀ b, s.memRead b ≠ 0#16 := by
  rw [stringLength, scanString_eq_none]
  constructor
  · intro h b
    obtain ⟨i, hi, rfl⟩ := word_reached (s.reg 0) b
    exact h i hi
  · exact fun h i _ => h _

/-- A service that takes a character: it holds on an empty input stream. -/
theorem serviceGetc_of_empty {s : State} (h : s.input = []) : serviceGetc s = s.setHold (some .getc) := by
  simp [serviceGetc, h]

/-- GETC with a character waiting. -/
theorem serviceGetc_of_cons {s : State} {c : Byte} {rest : List Byte} (h : s.input = c :: rest) :
    serviceGetc s = acceptChar c s := by
  simp [serviceGetc, h]

/-- IN on an empty input stream. -/
theorem serviceIn_of_empty {s : State} (h : s.input = []) : serviceIn s = s.setHold (some .inEcho) := by
  simp [serviceIn, h]

/-- IN with a character waiting. -/
theorem serviceIn_of_cons {s : State} {c : Byte} {rest : List Byte} (h : s.input = c :: rest) :
    serviceIn s = (acceptChar c s).emit [c] := by
  simp [serviceIn, h]

/-- A string service whose string ends. -/
theorem serviceString_of_some {chars : Word → List Byte} {h : Word → Hold} {s : State} {n : Nat}
    (hn : stringLength s = some n) :
    serviceString chars h s = finishString (BitVec.ofNat 16 n) (s.emit (stringChars chars s n)) := by
  simp [serviceString, hn]

/-- A string service with no zero word anywhere. -/
theorem serviceString_of_none {chars : Word → List Byte} {h : Word → Hold} {s : State}
    (hn : stringLength s = none) : serviceString chars h s = s.setHold (some (h 0#16)) := by
  simp [serviceString, hn]

end Sys2Proof.Machine
end

