-- ==== Sys2Proof/Laws/Step.lean ====
section
/-! SUPPORT. What one step can do, said once: the cases of `step`, and the effect any instruction can have. -/

namespace Sys2Proof.Machine

/-- Everything one instruction can do to memory, the flags, STATUS, ERR, the hold and the host's bits. -/
structure Effect (s t : State) : Prop where
  mem : t.mem = s.mem ∨ ∃ a v : Word, t.mem = s.mem.write a.toNat v
  flags : t.cc = s.cc ∨ ∃ v, t.cc = flagsOf v
  outcome : (t.status = s.status ∧ t.err = s.err) ∨ (t.hold = s.hold ∧ t.status = .halted ∧ t.err = s.err) ∨
    (t.hold = s.hold ∧ t.status = .faulted ∧ t.err.isSome = true)
  stop : t.stopRequest = s.stopRequest
  loaded : t.loaded = s.loaded

/-- Doing nothing is an effect. -/
theorem Effect.refl (s : State) : Effect s s := ⟨.inl rfl, .inl rfl, .inl ⟨rfl, rfl⟩, rfl, rfl⟩

/-- Writing a result register and the flags. -/
theorem Effect.writeResult (s : State) (dr : RegNum) (v : Word) : Effect s (s.writeResult dr v) :=
  ⟨.inl rfl, .inr ⟨v, rfl⟩, .inl ⟨rfl, rfl⟩, rfl, rfl⟩

/-- Storing a word. -/
theorem Effect.memWrite (s : State) (a v : Word) : Effect s (s.memWrite a v) :=
  ⟨.inr ⟨a, v, rfl⟩, .inl rfl, .inl ⟨rfl, rfl⟩, rfl, rfl⟩

/-- Taking an error. -/
theorem Effect.raiseError (s : State) (k : ErrorKind) : Effect s (s.raiseError k) :=
  ⟨.inl rfl, .inl rfl, .inr (.inr ⟨rfl, rfl, rfl⟩), rfl, rfl⟩

/-- Taking a character into R0. -/
theorem Effect.acceptChar (s : State) (c : Byte) : Effect s (acceptChar c s) :=
  ⟨.inl rfl, .inr ⟨_, rfl⟩, .inl ⟨rfl, rfl⟩, rfl, rfl⟩

/-- GETC. -/
theorem Effect.serviceGetc (s : State) : Effect s (serviceGetc s) := by
  unfold Machine.serviceGetc
  split
  · exact ⟨.inl rfl, .inl rfl, .inl ⟨rfl, rfl⟩, rfl, rfl⟩
  · exact Effect.acceptChar s _

/-- IN. -/
theorem Effect.serviceIn (s : State) : Effect s (serviceIn s) := by
  unfold Machine.serviceIn
  split
  · exact ⟨.inl rfl, .inl rfl, .inl ⟨rfl, rfl⟩, rfl, rfl⟩
  · exact ⟨.inl rfl, .inr ⟨_, rfl⟩, .inl ⟨rfl, rfl⟩, rfl, rfl⟩

/-- PUTS and PUTSP. -/
theorem Effect.serviceString (chars : Word → List Byte) (h : Word → Hold) (s : State) :
    Effect s (serviceString chars h s) := by
  unfold Machine.serviceString
  split <;> exact ⟨.inl rfl, .inl rfl, .inl ⟨rfl, rfl⟩, rfl, rfl⟩

/-- One turn of a string loop. -/
theorem Effect.continueString (chars : Word → List Byte) (h : Word → Hold) (n : Word) (s : State) :
    Effect s (continueString chars h n s) := by
  unfold Machine.continueString
  dsimp only
  split <;> exact ⟨.inl rfl, .inl rfl, .inl ⟨rfl, rfl⟩, rfl, rfl⟩

/-- The dispatcher. -/
theorem Effect.dispatchTrap (vect : Byte) (s : State) : Effect s (dispatchTrap vect s) := by
  unfold Machine.dispatchTrap
  split
  · exact Effect.serviceGetc s
  · exact ⟨.inl rfl, .inl rfl, .inl ⟨rfl, rfl⟩, rfl, rfl⟩
  · exact Effect.serviceString _ _ s
  · exact Effect.serviceIn s
  · exact Effect.serviceString _ _ s
  · exact ⟨.inl rfl, .inl rfl, .inr (.inl ⟨rfl, rfl, rfl⟩), rfl, rfl⟩
  · exact Effect.raiseError s _

/-- A step that holds goes on with an effect of its service. -/
theorem Effect.continueHold (h : Hold) (s : State) : Effect s (continueHold h s) := by
  cases h with
  | getc => exact Effect.serviceGetc s
  | inEcho => exact Effect.serviceIn s
  | puts n => exact Effect.continueString _ _ n s
  | putsp n => exact Effect.continueString _ _ n s

/-- Whatever an instruction does, it is an `Effect`. -/
theorem exec_effect {i : Instr} {s t : State} (h : exec i s = .next t) : Effect s t := by
  cases i with
  | br n z p off =>
    simp only [exec, execBr] at h
    split at h <;> cases h
    · exact ⟨.inl rfl, .inl rfl, .inl ⟨rfl, rfl⟩, rfl, rfl⟩
    · exact Effect.refl s
  | addReg dr sr1 sr2 => cases h; exact Effect.writeResult s _ _
  | addImm dr sr1 imm => cases h; exact Effect.writeResult s _ _
  | andReg dr sr1 sr2 => cases h; exact Effect.writeResult s _ _
  | andImm dr sr1 imm => cases h; exact Effect.writeResult s _ _
  | not dr sr => cases h; exact Effect.writeResult s _ _
  | ld dr off => cases h; exact Effect.writeResult s _ _
  | ldr dr base off => cases h; exact Effect.writeResult s _ _
  | ldi dr off => cases h; exact Effect.writeResult s _ _
  | lea dr off => cases h; exact Effect.writeResult s _ _
  | st sr off => cases h; exact Effect.memWrite s _ _
  | str sr base off => cases h; exact Effect.memWrite s _ _
  | sti sr off => cases h; exact Effect.memWrite s _ _
  | jmp base => cases h; exact ⟨.inl rfl, .inl rfl, .inl ⟨rfl, rfl⟩, rfl, rfl⟩
  | ret => cases h; exact ⟨.inl rfl, .inl rfl, .inl ⟨rfl, rfl⟩, rfl, rfl⟩
  | jsr off => cases h; exact ⟨.inl rfl, .inl rfl, .inl ⟨rfl, rfl⟩, rfl, rfl⟩
  | jsrr base => cases h; exact ⟨.inl rfl, .inl rfl, .inl ⟨rfl, rfl⟩, rfl, rfl⟩
  | rti => cases h; exact Effect.refl s
  | reserved => cases h; exact Effect.raiseError s _
  | trap vect => cases h; exact Effect.dispatchTrap vect s
  | trapGetc => cases h; exact Effect.serviceGetc s
  | trapOut => cases h; exact ⟨.inl rfl, .inl rfl, .inl ⟨rfl, rfl⟩, rfl, rfl⟩
  | trapPuts => cases h; exact Effect.serviceString _ _ s
  | trapIn => cases h; exact Effect.serviceIn s
  | trapPutsp => cases h; exact Effect.serviceString _ _ s
  | trapHalt => cases h; exact ⟨.inl rfl, .inl rfl, .inr (.inl ⟨rfl, rfl, rfl⟩), rfl, rfl⟩

/-- The cases of a step (R120 to R127). -/
theorem step_cases {s t : State} (h : step s = .next t) :
    (s.status ≠ .running ∧ t = s) ∨
    (s.status = .running ∧ ∃ k, s.hold = some k ∧ t = continueHold k s) ∨
    (s.status = .running ∧ s.hold = none ∧ s.stopRequest = true ∧ t = honourStop s) ∨
    (Ready s ∧ ((∃ i, decode (s.memRead s.pc) = .ok i ∧ exec i (fetch s) = .next t) ∨
      (decode (s.memRead s.pc) = .error .illegalInstruction ∧ t = (fetch s).raiseError .illegalInstruction))) := by
  unfold step cycle at h
  split at h
  · cases h; exact .inl ⟨‹_›, rfl⟩
  · rename_i hr
    have hr : s.status = .running := by simpa using hr
    split at h
    · rename_i k hk
      cases h; exact .inr (.inl ⟨hr, k, hk, rfl⟩)
    · rename_i hk
      split at h
      · rename_i hs
        cases h; exact .inr (.inr (.inl ⟨hr, hk, hs, rfl⟩))
      · rename_i hs
        refine .inr (.inr (.inr ⟨⟨hr, hk, by simpa using hs⟩, ?_⟩))
        unfold decodeAndExecute at h
        split at h
        · rename_i i hd
          exact .inl ⟨i, hd, h⟩
        · rename_i hd
          cases h; exact .inr ⟨hd, rfl⟩

/-- A ready core runs the cycle. -/
theorem step_of_ready {s : State} (h : Ready s) : step s = decodeAndExecute (fetch s) := by
  simp [step, cycle, h.running, h.free, h.unstopped]

end Sys2Proof.Machine
end

