-- ==== Sys2Proof/Laws/Ops.lean ====
section
/-! SUPPORT. One lemma per shared operation that says everything it does, in the claims' terms: writing a result, jumping,
storing, loading an image, the bytes of a word, the string length, runs that stay where they are. -/

namespace Sys2Proof.Machine

/-- The three flags of a value are its sign (R27). -/
theorem flagsOf_reflect (v : Word) : (flagsOf v).Reflect v := by
  have hn : v.getLsbD 15 = true ↔ v.toInt < 0 := by
    rw [BitVec.toInt_neg_iff, ← BitVec.msb_eq_getLsbD_last v, BitVec.msb_eq_decide]
    simp
    omega
  have hz : v = 0#16 ↔ v.toInt = 0 := by
    rw [← BitVec.toInt_inj]
    simp
  refine ⟨hn, by simpa [flagsOf] using hz, ?_⟩
  simp only [flagsOf, Bool.and_eq_true, Bool.not_eq_true', decide_eq_true_eq]
  rw [← Bool.not_eq_true, hn, hz.ne]
  omega

/-- Writing a result does what `ResultIn` says, and nothing else (R29, R142 to R146, R181 to R184). -/
theorem State.writeResult_resultIn (s : State) (dr : RegNum) (v : Word) : ResultIn dr v s (s.writeResult dr v) where
  result := by simp
  flags := flagsOf_reflect v
  regs r hr := by
    have : dr ≠ r := fun h => hr (by simp [h])
    simp [this]
  pc := rfl
  mem _ := rfl
  streams := ⟨rfl, rfl⟩
  control := ⟨rfl, rfl, rfl, rfl, rfl, rfl, rfl⟩

/-- Writing the PC does what `JumpsTo` says, and nothing else (R160). -/
theorem State.setPc_jumpsTo (s : State) (v : Word) (ds : List RegNum) : JumpsTo v ds s (s.setPc v) where
  pc := rfl
  regs _ _ := rfl
  flags := rfl
  mem _ := rfl
  streams := ⟨rfl, rfl⟩
  control := ⟨rfl, rfl, rfl, rfl, rfl, rfl, rfl⟩

/-- A store does what `StoresAt` says, and nothing else, where memory is canonical (R53, R185 to R187). -/
theorem State.memWrite_storesAt {s : State} (h : s.mem.wf = true) (a v : Word) : StoresAt a v s (s.memWrite a v) where
  stored := State.memRead_memWrite_same h a v
  mem _ hb := State.memRead_memWrite_other s v (Ne.symm hb)
  regs _ _ := rfl
  flags := rfl
  pc := rfl
  streams := ⟨rfl, rfl⟩
  control := ⟨rfl, rfl, rfl, rfl, rfl, rfl, rfl⟩

/-- Word `k` of a loaded image stands at `origin + k`, unless the image runs on for 65536 words more and "overwrites its own
beginning" (R262). -/
theorem Memory.read_load_inside {m : Memory} (h : m.wf = true) (origin : Word) (ws : List Word)
    {k : Nat} (hk : k < ws.length) (hlast : ws.length ≤ k + 65536) :
    (m.load origin ws).read (origin + BitVec.ofNat 16 k).toNat = ws[k] := by
  induction ws generalizing m origin k with
  | nil => simp at hk
  | cons w ws ih =>
    have hlast' : ws.length + 1 ≤ k + 65536 := hlast
    cases k with
    | zero =>
      rw [show origin + BitVec.ofNat 16 0 = origin by simp, Memory.load, Memory.read_load_outside]
      · exact Memory.read_write_same _ _ h
      · intro k hk he
        have := congrArg BitVec.toNat he
        have := origin.isLt
        simp at *
        omega
    | succ k =>
      have := ih (Memory.wf_write w h origin.isLt) (origin + 1#16) (k := k) (by simpa using hk) (by omega)
      have e := word_add_one_add origin k
      rw [aluAdd] at e
      rw [e] at this
      simpa [Memory.load] using this

/-- A byte stream that "ends mid-word" has no words (R264). -/
theorem parseWords_of_odd (order : ByteOrder) {bytes : List Byte} (h : bytes.length % 2 = 1) :
    parseWords order bytes = none := by
  induction bytes using parseWords.induct with
  | case1 => cases h
  | case2 => rfl
  | case3 a b rest ih => simp only [parseWords, ih (by simp at h; omega), Option.map_none]

/-- Any other byte stream is its words, two bytes each in the file's order (R59, R264). -/
theorem parseWords_of_even (order : ByteOrder) {bytes : List Byte} (h : bytes.length % 2 = 0) :
    ∃ ws, parseWords order bytes = some ws ∧ ws.length = bytes.length / 2 ∧
      ∀ (k : Nat) (hk : k < ws.length),
        ws[k] = wordOfBytes order (bytes.getD (2 * k) 0#8) (bytes.getD (2 * k + 1) 0#8) := by
  induction bytes using parseWords.induct with
  | case1 => exact ⟨[], rfl, rfl, by simp⟩
  | case2 => simp at h
  | case3 a b rest ih =>
    obtain ⟨ws, hp, hl, hw⟩ := ih (by simp at h; omega)
    refine ⟨wordOfBytes order a b :: ws, by simp only [parseWords, hp, Option.map_some], by simp [hl]; omega, ?_⟩
    intro k hk
    cases k with
    | zero => rfl
    | succ k => exact hw k (by simpa using hk)

/-- Bits [7:0] of a word. -/
theorem lowByte_eq (w : Word) : lowByte w = w.setWidth 8 := by
  apply BitVec.eq_of_toNat_eq
  simp [lowByte]

/-- Bits [15:8] of a word. -/
theorem highByte_eq (w : Word) : highByte w = BitVec.ofNat 8 (w.toNat / 256) := by
  apply BitVec.eq_of_toNat_eq
  simp [highByte, Nat.shiftRight_eq_div_pow]

/-- The characters of a packed word: the low byte, and the high byte unless it is zero (R210). -/
theorem putspChars_eq (w : Word) : putspChars w =
    w.setWidth 8 :: (if w.toNat / 256 = 0 then [] else [BitVec.ofNat 8 (w.toNat / 256)]) := by
  have hw := w.isLt
  have hz : BitVec.ofNat 8 (w.toNat / 256) = 0#8 ↔ w.toNat / 256 = 0 := by
    rw [← BitVec.toNat_inj, BitVec.toNat_ofNat, Nat.mod_eq_of_lt (by omega)]
    rfl
  rw [putspChars, highByte_eq, lowByte_eq]
  simp only [hz]
  split <;> rfl

/-- A string whose words before the `n`-th are not zero and whose `n`-th is has length `n` (R208). -/
theorem stringLength_eq_some {s : State} {n : Nat}
    (hne : ∀ i, i < n → s.memRead (s.reg 0 + BitVec.ofNat 16 i) ≠ 0#16)
    (hz : s.memRead (s.reg 0 + BitVec.ofNat 16 n) = 0#16) : stringLength s = some n := by
  have hn : n < 65536 := by
    by_contra hn
    refine hne (n - 65536) (by omega) ?_
    rw [← hz]
    refine congrArg (fun x => s.memRead (s.reg 0 + x)) (BitVec.eq_of_toNat_eq ?_)
    rw [BitVec.toNat_ofNat, BitVec.toNat_ofNat]
    omega
  unfold stringLength
  exact scanString_eq_some.2 ⟨hn, hne, hz⟩

/-- A step that holds keeps STATUS (R122). -/
theorem continueHold_status (h : Hold) (s : State) : (continueHold h s).status = s.status := by
  cases h <;> simp only [continueHold, serviceGetc, serviceIn, continueString] <;> split <;> rfl

/-- A core that is not Running takes no step (R123). -/
theorem step_of_not_running {s : State} (h : s.status ≠ .running) : step s = .next s := by
  simp [step, cycle, h]

/-- A core that holds continues its service. -/
theorem step_of_hold {s : State} {h : Hold} (hr : s.status = .running) (hh : s.hold = some h) :
    step s = .next (continueHold h s) := by
  simp [step, cycle, hr, hh]

/-- A state that steps to itself stays through any run. -/
theorem run_of_fixed {s : State} (h : step s = .next s) (k : Nat) : core.run k s = .next s := by
  induction k with
  | zero => rfl
  | succ k ih =>
    have h' : core.step s = .next s := h
    simp only [Host.Core.run, h', ih]

/-- One step more at the end of a run. -/
theorem run_succ_last {k : Nat} {s t : core.State} (h : core.run k s = .next t) :
    core.run (k + 1) s = core.step t := by
  induction k generalizing s with
  | zero =>
    cases h
    simp only [Host.Core.run]
    generalize core.step t = o
    cases o <;> rfl
  | succ k ih =>
    cases hs : core.step s with
    | next u =>
      simp only [Host.Core.run, hs] at h
      rw [← ih h]
      conv => lhs; unfold Host.Core.run
      simp only [hs]
    | fault r => simp [Host.Core.run, hs] at h
    | refused r => simp [Host.Core.run, hs] at h

end Sys2Proof.Machine
end

