-- ==== Sys2Proof/Laws/PerInstr.lean ====
section
/-! SUPPORT. What holds of every instruction as syntax, one lemma per constructor. -/

namespace Sys2Proof.Laws.SchemaWidth

/-- R91: "Every schema sums to 16"; only a row without a schema has none (R90). -/
def Statement (i : Instr) : Prop := schemaWidth (schema i) = 16 ↔ i.hasSchema = true

theorem br (n z p : Bool) (off : Word) : Statement (.br n z p off) := by
  simp [Statement, schemaWidth, schema, Instr.hasSchema]

theorem addReg (dr sr1 sr2 : RegNum) : Statement (.addReg dr sr1 sr2) := by
  simp [Statement, schemaWidth, schema, Instr.hasSchema, schemaOpReg]

theorem addImm (dr sr1 : RegNum) (imm : Word) : Statement (.addImm dr sr1 imm) := by
  simp [Statement, schemaWidth, schema, Instr.hasSchema, schemaOpImm]

theorem ld (dr : RegNum) (off : Word) : Statement (.ld dr off) := by
  simp [Statement, schemaWidth, schema, Instr.hasSchema, schemaPcRel]

theorem st (sr : RegNum) (off : Word) : Statement (.st sr off) := by
  simp [Statement, schemaWidth, schema, Instr.hasSchema, schemaPcRel]

theorem jsr (off : Word) : Statement (.jsr off) := by
  simp [Statement, schemaWidth, schema, Instr.hasSchema]

theorem jsrr (base : RegNum) : Statement (.jsrr base) := by
  simp [Statement, schemaWidth, schema, Instr.hasSchema]

theorem andReg (dr sr1 sr2 : RegNum) : Statement (.andReg dr sr1 sr2) := by
  simp [Statement, schemaWidth, schema, Instr.hasSchema, schemaOpReg]

theorem andImm (dr sr1 : RegNum) (imm : Word) : Statement (.andImm dr sr1 imm) := by
  simp [Statement, schemaWidth, schema, Instr.hasSchema, schemaOpImm]

theorem ldr (dr base : RegNum) (off : Word) : Statement (.ldr dr base off) := by
  simp [Statement, schemaWidth, schema, Instr.hasSchema, schemaBase]

theorem str (sr base : RegNum) (off : Word) : Statement (.str sr base off) := by
  simp [Statement, schemaWidth, schema, Instr.hasSchema, schemaBase]

theorem rti : Statement .rti := by
  simp [Statement, schemaWidth, schema, Instr.hasSchema]

theorem not (dr sr : RegNum) : Statement (.not dr sr) := by
  simp [Statement, schemaWidth, schema, Instr.hasSchema]

theorem ldi (dr : RegNum) (off : Word) : Statement (.ldi dr off) := by
  simp [Statement, schemaWidth, schema, Instr.hasSchema, schemaPcRel]

theorem sti (sr : RegNum) (off : Word) : Statement (.sti sr off) := by
  simp [Statement, schemaWidth, schema, Instr.hasSchema, schemaPcRel]

theorem jmp (base : RegNum) : Statement (.jmp base) := by
  simp [Statement, schemaWidth, schema, Instr.hasSchema, schemaJmp]

theorem lea (dr : RegNum) (off : Word) : Statement (.lea dr off) := by
  simp [Statement, schemaWidth, schema, Instr.hasSchema, schemaPcRel]

theorem trap (vect : Byte) : Statement (.trap vect) := by
  simp [Statement, schemaWidth, schema, Instr.hasSchema, schemaTrap]

theorem reserved : Statement .reserved := by
  simp [Statement, schemaWidth, schema, Instr.hasSchema]

theorem ret : Statement .ret := by
  simp [Statement, schemaWidth, schema, Instr.hasSchema, schemaJmp]

theorem trapGetc : Statement .trapGetc := by
  simp [Statement, schemaWidth, schema, Instr.hasSchema, schemaTrap]

theorem trapOut : Statement .trapOut := by
  simp [Statement, schemaWidth, schema, Instr.hasSchema, schemaTrap]

theorem trapPuts : Statement .trapPuts := by
  simp [Statement, schemaWidth, schema, Instr.hasSchema, schemaTrap]

theorem trapIn : Statement .trapIn := by
  simp [Statement, schemaWidth, schema, Instr.hasSchema, schemaTrap]

theorem trapPutsp : Statement .trapPutsp := by
  simp [Statement, schemaWidth, schema, Instr.hasSchema, schemaTrap]

theorem trapHalt : Statement .trapHalt := by
  simp [Statement, schemaWidth, schema, Instr.hasSchema, schemaTrap]

end Sys2Proof.Laws.SchemaWidth
end

