-- ==== Sys2Proof/Tests/Slice0.lean ====
section
/-! SUPPORT. The model's own tests. Every expected value comes from the spec: the worked examples of the rules, the tables
of 95_test_vectors.md, or a hand calculation from a rule. Witnesses for the statements' hypotheses stand last. -/

namespace Sys2Proof.Tests

open Sys2Proof Sys2Proof.Machine

/-! ## WellFormed: each check refuses an ill-formed term (R76, R93) -/

theorem test_wf_refuses_imm5_add : (Instr.addImm 0 0 16#16).wellFormed = false := by decide
theorem test_wf_refuses_imm5_and : (Instr.andImm 0 0 0xFFEF#16).wellFormed = false := by decide
theorem test_wf_refuses_off9_br : (Instr.br true true true 256#16).wellFormed = false := by decide
theorem test_wf_refuses_off9_ld : (Instr.ld 0 0xFEFF#16).wellFormed = false := by decide
theorem test_wf_refuses_off9_ldi : (Instr.ldi 0 256#16).wellFormed = false := by decide
theorem test_wf_refuses_off9_lea : (Instr.lea 0 256#16).wellFormed = false := by decide
theorem test_wf_refuses_off9_st : (Instr.st 0 256#16).wellFormed = false := by decide
theorem test_wf_refuses_off9_sti : (Instr.sti 0 256#16).wellFormed = false := by decide
theorem test_wf_refuses_off11_jsr : (Instr.jsr 1024#16).wellFormed = false := by decide
theorem test_wf_refuses_off6_ldr : (Instr.ldr 0 0 32#16).wellFormed = false := by decide
theorem test_wf_refuses_off6_str : (Instr.str 0 0 0xFFDF#16).wellFormed = false := by decide
theorem test_wf_refuses_reserved : Instr.reserved.wellFormed = false := by decide

/-! ## Decode: each format written out bit by bit (R72, R80), the words of 95_test_vectors.md table 2.1 -/

theorem test_decode_add_reg : decode 0b0001_001_010_0_00_011#16 = .ok (.addReg 1 2 3) := by decide
theorem test_decode_add_reg_ignores_4_3 : decode 0b0001_001_010_0_11_011#16 = .ok (.addReg 1 2 3) := by decide
theorem test_decode_add_imm_low : decode 0b0001_000_000_1_10000#16 = .ok (.addImm 0 0 0xFFF0#16) := by decide
theorem test_decode_add_imm_high : decode 0b0001_000_000_1_01111#16 = .ok (.addImm 0 0 0x000F#16) := by decide
theorem test_decode_and_reg : decode 0b0101_011_001_0_00_010#16 = .ok (.andReg 3 1 2) := by decide
theorem test_decode_and_imm : decode 0b0101_010_011_1_10000#16 = .ok (.andImm 2 3 0xFFF0#16) := by decide
theorem test_decode_not : decode 0b1001_001_010_111111#16 = .ok (.not 1 2) := by decide
theorem test_decode_not_ignores_5_0 : decode 0b1001_001_010_000000#16 = .ok (.not 1 2) := by decide
theorem test_decode_br : decode 0b0000_0_1_0_000000011#16 = .ok (.br false true false 3#16) := by decide
theorem test_decode_br_n : decode 0b0000_1_0_0_000000000#16 = .ok (.br true false false 0#16) := by decide
theorem test_decode_jmp : decode 0b1100_000_011_000000#16 = .ok (.jmp 3) := by decide
theorem test_decode_ret_is_jmp : decode 0b1100_111_111_111111#16 = .ok (.jmp 7) := by decide
theorem test_decode_jsr_low : decode 0b0100_1_10000000000#16 = .ok (.jsr 0xFC00#16) := by decide
theorem test_decode_jsr_high : decode 0b0100_1_01111111111#16 = .ok (.jsr 0x03FF#16) := by decide
theorem test_decode_jsrr : decode 0b0100_0_00_011_000000#16 = .ok (.jsrr 3) := by decide
theorem test_decode_ld : decode 0b0010_010_000000101#16 = .ok (.ld 2 5#16) := by decide
theorem test_decode_ld_low : decode 0b0010_000_100000000#16 = .ok (.ld 0 0xFF00#16) := by decide
theorem test_decode_ldr : decode 0b0110_001_010_111111#16 = .ok (.ldr 1 2 0xFFFF#16) := by decide
theorem test_decode_ldi : decode 0b1010_011_000000010#16 = .ok (.ldi 3 2#16) := by decide
theorem test_decode_lea : decode 0b1110_000_111111101#16 = .ok (.lea 0 0xFFFD#16) := by decide
theorem test_decode_st : decode 0b0011_010_000000001#16 = .ok (.st 2 1#16) := by decide
theorem test_decode_str : decode 0b0111_001_110_000011#16 = .ok (.str 1 6 3#16) := by decide
theorem test_decode_sti : decode 0b1011_100_000000000#16 = .ok (.sti 4 0#16) := by decide
theorem test_decode_trap : decode 0b1111_1111_00100101#16 = .ok (.trap 0x25#8) := by decide
theorem test_decode_trap_unsupported : decode 0b1111_0000_11111111#16 = .ok (.trap 0xFF#8) := by decide
theorem test_decode_rti : decode 0b1000_101010111100#16 = .ok .rti := by decide
theorem test_decode_reserved : decode 0b1101_000100100011#16 = .error .illegalInstruction := by decide

/-! ## Encode: the words R91 names -/

theorem test_encode_add_reg : encode (.addReg 1 2 3) = .ok 0x1283#16 := by decide
theorem test_encode_not_fill : encode (.not 1 2) = .ok 0x92BF#16 := by decide
theorem test_encode_ret : encode .ret = .ok 0xC1C0#16 := by decide
theorem test_encode_rti : encode .rti = .ok 0x8000#16 := by decide
theorem test_encode_jsr_low : encode (.jsr 0xFC00#16) = .ok 0x4C00#16 := by decide
theorem test_encode_out_of_range : encode (.addImm 0 0 16#16) = .error .invalidOperand := by decide
theorem test_encode_reserved : encode .reserved = .error .malformedInstruction := by decide

/-! ## One step each (tables 2.2 to 2.6 of 95_test_vectors.md) -/

/-- The state an outcome leaves, if it leaves one. -/
def after (o : Host.Outcome State Fault Refusal) : Option State :=
  match o with
  | .next t => some t
  | .fault _ | .refused _ => none

/-- A Running core about to fetch the word `w` at address `a`, with other words of memory and registers as listed. -/
def ready (a w : Word) (mem : List (Word × Word)) (regs : List (RegNum × Word)) : State :=
  let s := mem.foldl (fun s c => s.memWrite c.1 c.2) State.reset
  let s := regs.foldl (fun s c => s.setReg c.1 c.2) s
  (s.setPc a).withFetchWord 16 w.toNat

/-- `ready` with the flags of `v`. -/
def readyCC (a w : Word) (v : Word) : State := (ready a w [] []).setcc v

theorem test_add_reg_overflow :
    (after (step (ready 0x3000#16 0x1283#16 [] [(2, 0x7FFF#16), (3, 1#16)]))).map (fun t => (t.reg 1, t.cc, t.pc)) =
      some (0x8000#16, ⟨true, false, false⟩, 0x3001#16) := by decide
theorem test_add_reg_source_is_destination :
    (after (step (ready 0x3000#16 0x1FC7#16 [] [(7, 0x4001#16)]))).map (fun t => (t.reg 7, t.cc)) =
      some (0x8002#16, ⟨true, false, false⟩) := by decide
theorem test_add_imm_minus_one :
    (after (step (ready 0x3000#16 0x12BF#16 [] []))).map (fun t => (t.reg 1, t.cc)) =
      some (0xFFFF#16, ⟨true, false, false⟩) := by decide
theorem test_and_reg :
    (after (step (ready 0x3000#16 0x5642#16 [] [(1, 0xFF0F#16), (2, 0x0FF0#16)]))).map (fun t => (t.reg 3, t.cc)) =
      some (0x0F00#16, ⟨false, false, true⟩) := by decide
theorem test_and_imm_sign_extends :
    (after (step (ready 0x3000#16 0x54F0#16 [] [(3, 0x8ABC#16)]))).map (fun t => (t.reg 2, t.cc)) =
      some (0x8AB0#16, ⟨true, false, false⟩) := by decide
theorem test_and_imm_pc_wraps :
    (after (step (ready 0xFFFF#16 0x5020#16 [] [(0, 1#16)]))).map (fun t => (t.reg 0, t.cc, t.pc)) =
      some (0#16, ⟨false, true, false⟩, 0#16) := by decide
theorem test_not :
    (after (step (ready 0x3000#16 0x92BF#16 [] [(2, 0x8000#16)]))).map (fun t => (t.reg 1, t.cc)) =
      some (0x7FFF#16, ⟨false, false, true⟩) := by decide
theorem test_br_z_taken :
    (after (step (readyCC 0x3000#16 0x0403#16 0#16))).map (·.pc) = some 0x3004#16 := by decide
theorem test_br_nzp_without_flags :
    (after (step (ready 0x3000#16 0x0FFE#16 [] []))).map (·.pc) = some 0x3001#16 := by decide
theorem test_br_000_always :
    (after (step (ready 0x3000#16 0x0003#16 [] []))).map (·.pc) = some 0x3004#16 := by decide
theorem test_jmp :
    (after (step (ready 0x3000#16 0xC0C0#16 [] [(3, 0x4000#16)]))).map (·.pc) = some 0x4000#16 := by decide
theorem test_ret :
    (after (step (ready 0x3000#16 0xC1C0#16 [] [(7, 0x3456#16)]))).map (fun t => (t.pc, t.reg 7)) =
      some (0x3456#16, 0x3456#16) := by decide
theorem test_jsr :
    (after (step (ready 0x3000#16 0x4802#16 [] [(7, 0x1111#16)]))).map (fun t => (t.reg 7, t.pc)) =
      some (0x3001#16, 0x3003#16) := by decide
theorem test_jsrr :
    (after (step (ready 0x3000#16 0x40C0#16 [] [(3, 0x5000#16)]))).map (fun t => (t.reg 7, t.pc)) =
      some (0x3001#16, 0x5000#16) := by decide
theorem test_jsrr_r7 :
    (after (step (ready 0x3000#16 0x41C0#16 [] [(7, 0x5000#16)]))).map (fun t => (t.reg 7, t.pc)) =
      some (0x3001#16, 0x3001#16) := by decide
theorem test_ld :
    (after (step (ready 0x3000#16 0x2405#16 [(0x3006#16, 0x8001#16)] []))).map (fun t => (t.reg 2, t.cc)) =
      some (0x8001#16, ⟨true, false, false⟩) := by decide
theorem test_ld_own_word :
    (after (step (ready 0x3000#16 0x21FF#16 [] []))).map (fun t => (t.reg 0, t.cc)) =
      some (0x21FF#16, ⟨false, false, true⟩) := by decide
theorem test_ldr_wraps_base_is_destination :
    (after (step (ready 0x3000#16 0x6020#16 [(0xFFF0#16, 0x00AB#16)] [(0, 0x0010#16)]))).map
      (fun t => (t.reg 0, t.cc)) = some (0x00AB#16, ⟨false, false, true⟩) := by decide
theorem test_ldi :
    (after (step (ready 0x3000#16 0xA602#16 [(0x3003#16, 0x4000#16), (0x4000#16, 0x0042#16)] []))).map
      (fun t => (t.reg 3, t.cc)) = some (0x0042#16, ⟨false, false, true⟩) := by decide
theorem test_lea :
    (after (step (ready 0x3000#16 0xE1FD#16 [] []))).map (fun t => (t.reg 0, t.cc)) =
      some (0x2FFE#16, ⟨false, false, true⟩) := by decide
theorem test_st :
    (after (step (ready 0x3000#16 0x3401#16 [] [(2, 0xBEEF#16)]))).map (fun t => (t.memRead 0x3002#16, t.pc)) =
      some (0xBEEF#16, 0x3001#16) := by decide
theorem test_st_own_word :
    (after (step (ready 0x3000#16 0x31FF#16 [] [(0, 0xF025#16)]))).map
      (fun t => (t.memRead 0x3000#16, t.pc, t.status)) = some (0xF025#16, 0x3001#16, .running) := by decide
theorem test_str :
    (after (step (ready 0x3000#16 0x7E20#16 [] [(7, 0x0077#16)]))).map (·.memRead 0xFFE0#16) =
      some 0x0077#16 := by decide
theorem test_sti :
    (after (step (ready 0x3000#16 0xB800#16 [(0x3001#16, 0x5000#16)] [(4, 0x00AA#16)]))).map
      (fun t => (t.memRead 0x5000#16, t.memRead 0x3001#16)) = some (0x00AA#16, 0x5000#16) := by decide
theorem test_rti :
    (after (step (ready 0x3000#16 0x8000#16 [] []))).map (fun t => (t.pc, t.status, t.cc)) =
      some (0x3001#16, .running, ⟨false, false, false⟩) := by decide
theorem test_getc :
    (after (step { ready 0x3000#16 0xF020#16 [] [] with input := [0x41#8] })).map
      (fun t => (t.reg 0, t.cc, t.input, t.output, t.pc)) =
      some (0x0041#16, ⟨false, false, true⟩, [], [], 0x3001#16) := by decide
theorem test_getc_holds :
    (after (step (ready 0x3000#16 0xF020#16 [] []))).map (fun t => (t.hold, t.status, t.pc, t.fpc)) =
      some (some .getc, .running, 0x3001#16, 0x3000#16) := by decide
theorem test_in_echoes :
    (after (step { ready 0x3000#16 0xF023#16 [] [] with input := [0x37#8] })).map
      (fun t => (t.reg 0, t.cc, t.output)) = some (0x0037#16, ⟨false, false, true⟩, [0x37#8]) := by decide
theorem test_out_low_byte (s : State) (h : s.memRead Config.outCell = 0x0148#16) :
    (after (exec .trapOut s)).map (·.output) = some (s.output ++ [0x48#8]) := by
  simp [exec, execTrapOut, serviceOut, outCellAddress, after, h, lowByte]
theorem test_puts :
    (after (step (ready 0x3001#16 0xF022#16 [(0x3010#16, 0x48#16), (0x3011#16, 0x69#16)] [(0, 0x3010#16)]))).map
      (fun t => (t.output, t.pc, t.reg 0)) = some ([0x48#8, 0x69#8], 0x3004#16, 0x3010#16) := by decide
theorem test_puts_wraps :
    (after (step (ready 0x3001#16 0xF022#16 [(0xFFFF#16, 0x41#16), (0#16, 0x42#16)] [(0, 0xFFFF#16)]))).map
      (fun t => (t.output, t.pc)) = some ([0x41#8, 0x42#8], 0x3004#16) := by decide
theorem test_putsp :
    (after (step (ready 0x3001#16 0xF024#16 [(0x3010#16, 0x6548#16), (0x3011#16, 0x006C#16)] [(0, 0x3010#16)]))).map
      (fun t => (t.output, t.pc)) = some ([0x48#8, 0x65#8, 0x6C#8], 0x3004#16) := by decide
theorem test_putsp_zero_low_byte :
    (after (step (ready 0x3001#16 0xF024#16 [(0x3010#16, 0x4100#16)] [(0, 0x3010#16)]))).map
      (fun t => (t.output, t.pc)) = some ([0x00#8, 0x41#8], 0x3003#16) := by decide
theorem test_halt_ignores_11_8 :
    (after (step (ready 0x3005#16 0xFA25#16 [] []))).map (fun t => (t.status, t.pc)) =
      some (.halted, 0x3006#16) := by decide
theorem test_unsupported_trap :
    (after (step (ready 0x3000#16 0xF026#16 [] []))).map (fun t => (t.status, t.err, t.pc)) =
      some (.faulted, some ⟨.unsupportedTrap, 0x3000#16, 0xF026#16⟩, 0x3001#16) := by decide
theorem test_illegal_instruction :
    (after (step (ready 0xFFFF#16 0xD000#16 [] []))).map (fun t => (t.status, t.err, t.pc)) =
      some (.faulted, some ⟨.illegalInstruction, 0xFFFF#16, 0xD000#16⟩, 0#16) := by decide
theorem test_reserved_row :
    (after (exec .reserved State.reset)).map (·.status) = some .faulted := by decide
theorem test_table_word_runs_after_reset :
    (after (step (State.reset.withFetchWord 16 0x5020))).map (fun t => (t.cc, t.pc)) =
      some (⟨false, true, false⟩, 1#16) := by decide
theorem test_table_word_decodes : decodeTableWord 16 0xD000 = none ∧ decodeTableWord 16 0x1283 = some (.addReg 1 2 3) := by
  decide

/-! ## The host and the toolchain -/

theorem test_load_then_start :
    ((after (hostAct (.load 0x3000#16 [0xF025#16]) State.reset)).bind fun s => after (hostAct .start s)).map
      (fun t => (t.pc, t.status, t.memRead 0x3000#16)) = some (0x3000#16, .running, 0xF025#16) := by decide
theorem test_load_file_big_endian :
    (after (hostAct (.loadFile .big (some [0x30#8, 0x00#8, 0xF0#8, 0x25#8])) State.reset)).map
      (fun t => (t.pc, t.memRead 0x3000#16)) = some (0x3000#16, 0xF025#16) := by decide
theorem test_parse_mid_word : parseImage .big [0x30#8, 0x00#8, 0xF0#8] = none := by decide
/-- P2 of 95_test_vectors.md: `LEA R1,DATA` at word-offset 0, DATA at word-offset 11, is 0xE20A. -/
theorem test_assemble_lea_label :
    (AsmStatement.mk (.op .lea) [.register 1, .label 0]).emit [(0, 11)] 0 = .ok [0xE20A#16] := by decide
/-- P2: `BRp LOOP` at word-offset 7, LOOP at word-offset 3, is 0x03FB. -/
theorem test_assemble_brp_label :
    (AsmStatement.mk (.op (.br [.p])) [.label 0]).emit [(0, 3)] 7 = .ok [0x03FB#16] := by decide
/-- P2 whole: LOOP, COUNT, DATA, RESULT are the labels 0 to 3, at word-offsets 3, 10, 11, 15. -/
theorem test_assemble_p2 :
    (AsmUnit.mk [⟨.directive .orig, [.literal 0x3000]⟩,
      ⟨.op .lea, [.register 1, .label 2]⟩, ⟨.op .and, [.register 0, .register 0, .literal 0]⟩,
      ⟨.op .ld, [.register 2, .label 1]⟩, ⟨.op .ldr, [.register 3, .register 1, .literal 0]⟩,
      ⟨.op .add, [.register 0, .register 0, .register 3]⟩, ⟨.op .add, [.register 1, .register 1, .literal 1]⟩,
      ⟨.op .add, [.register 2, .register 2, .literal (-1)]⟩, ⟨.op (.br [.p]), [.label 0]⟩,
      ⟨.op .st, [.register 0, .label 3]⟩, ⟨.op .trap, [.literal 0x25]⟩, ⟨.directive .fill, [.literal 4]⟩,
      ⟨.directive .fill, [.literal 10]⟩, ⟨.directive .fill, [.literal 20]⟩, ⟨.directive .fill, [.literal 30]⟩,
      ⟨.directive .fill, [.literal (-5)]⟩, ⟨.directive .blkw, [.literal 1]⟩, .endUnit]
      [(0, 3), (1, 10), (2, 11), (3, 15)]).assemble =
    .ok ⟨0x3000#16, [0xE20A#16, 0x5020#16, 0x2407#16, 0x6640#16, 0x1003#16, 0x1261#16, 0x14BF#16, 0x03FB#16, 0x3006#16,
      0xF025#16, 0x0004#16, 0x000A#16, 0x0014#16, 0x001E#16, 0xFFFB#16, 0x0000#16], []⟩ := by decide
theorem test_assemble_directives :
    (AsmUnit.mk [⟨.directive .orig, [.literal 0x3000]⟩, .stringz [0x48#8, 0x69#8], ⟨.directive .blkw, [.literal 1]⟩,
      ⟨.directive .fill, [.literal (-5)]⟩, .endUnit, ⟨.op .rti, []⟩] []).assemble.map (·.image) =
      .ok [0x3000#16, 0x48#16, 0x69#16, 0#16, 0#16, 0xFFFB#16] := by decide
/-- R95: `NOT R1,#5` fails, alone; the words before it stay and the statements after it are assembled. -/
theorem test_assemble_failed_statement_alone :
    (AsmUnit.mk [⟨.directive .orig, [.literal 0x3000]⟩, ⟨.op .add, [.register 1, .register 2, .register 3]⟩,
      ⟨.op .not, [.register 1, .literal 5]⟩, ⟨.op .trap, [.literal 0x25]⟩] []).assemble =
      .ok ⟨0x3000#16, [0x1283#16, 0xF025#16], [(2, .invalidOperand)]⟩ := by decide
theorem test_assemble_orig_first :
    (AsmUnit.mk [⟨.op .rti, []⟩, ⟨.directive .orig, [.literal 0x3000]⟩] []).assemble = .error .invalidOperand := by
  decide
/-- R95: tokens of the wrong kind or number, one opcode shape each. -/
theorem test_assemble_wrong_shapes :
    [assembleInstr [] 0 .jmp [.literal 3], assembleInstr [] 0 .jsrr [.label 0], assembleInstr [] 0 .trap [.register 1],
      assembleInstr [] 0 .ldr [.register 1, .register 2, .register 3],
      assembleInstr [] 0 .str [.register 1, .literal 2, .literal 3], assembleInstr [] 0 .add [.literal 1, .register 1, .register 1],
      assembleInstr [(0, 1)] 0 .ld [.label 0, .label 0], assembleInstr [] 0 .ret [.register 7],
      assembleInstr [] 0 .jsr [.literal 1]] = List.replicate 9 (.error .invalidOperand) := by decide
theorem test_assemble_add_imm : assembleAdd 1 2 (.literal (-1)) = .ok (.addImm 1 2 0xFFFF#16) := by decide
theorem test_assemble_add_out_of_range : assembleAdd 1 2 (.literal 16) = .error .invalidOperand := by decide
theorem test_assemble_and_register : assembleAnd 1 2 (.register 8) = .error .invalidOperand := by decide

/-! ## Witnesses: one concrete state and operands meeting all the hypotheses of each statement that has some -/

theorem witness_DecodeOfEncodeGivesTheInstructionBack :
    (Instr.jsr 0xFC00#16).WellFormed ∧ (Instr.jsr 0xFC00#16).isVariant = true ∧
      decode 0x4C00#16 = .ok (.jsr 0xFC00#16) := by decide
theorem witness_DecodeIgnoresUnusedBits :
    0x1283#16 ≠ 0x129B#16 ∧ 0x1283#16 &&& ~~~ignoredBits 0x1283#16 = 0x129B#16 &&& ~~~ignoredBits 0x1283#16 := by
  decide
theorem witness_DecodedInstructionsAreWellFormedVariants : decode 0x20FF#16 = .ok (.ld 0 0x00FF#16) := by decide
theorem witness_DecodedInstructionsAreWellFormedVariants_out_of_range :
    15 < (16#16).toInt ∧ (0xFFEF#16).toInt < -16 ∧ 31 < (32#16).toInt ∧ (0xFFDF#16).toInt < -32 ∧
      255 < (256#16).toInt ∧ (0xFEFF#16).toInt < -256 ∧ 1023 < (1024#16).toInt ∧ (0xFBFF#16).toInt < -1024 := by decide
theorem witness_SignExtensionReplicatesTheTopBit_low :
    1 ≤ 5 ∧ 5 ≤ 16 ∧ (0b01111#5).getLsbD 4 = false ∧ (0b01111#5).toNat < 2 ^ 4 := by decide
theorem witness_SignExtensionReplicatesTheTopBit_high :
    1 ≤ 16 ∧ 16 ≤ 16 ∧ (0x8000#16).getLsbD 15 = true ∧ 2 ^ 15 ≤ (0x8000#16).toNat := by decide
theorem witness_LabelOffsetReachesTheLabel : labelOffset 9 0 256 = .ok 255#16 := by decide
theorem witness_StepsKeepFlagsOrLeaveExactlyOne :
    ∃ t, step (ready 0x3000#16 0x5020#16 [] []) = .next t ∧ t.cc ≠ (ready 0x3000#16 0x5020#16 [] []).cc :=
  ⟨_, rfl, by decide⟩
theorem witness_OnlyCodeSettingInstructionsChangeFlags_setting :
    setsFlags (.trap 0x20#8) = true ∧ ∃ t, exec (.trap 0x20#8) State.reset = .next t ∧ t.hold = some .getc :=
  ⟨rfl, _, rfl, rfl⟩
theorem witness_OnlyCodeSettingInstructionsChangeFlags_other :
    setsFlags (.trap 0x21#8) = false ∧ ∃ t, exec (.trap 0x21#8) State.reset = .next t := ⟨by decide, _, rfl⟩
theorem witness_MemWriteReplacesOneWord : State.reset.mem.wf = true ∧ 0xFFFF#16 ≠ 0#16 := by decide
theorem witness_CanonicalMemoriesThatReadAlikeAreEqual :
    Memory.wf [(0xFFFF, 1#16)] = true ∧ ∀ a : Word, Memory.read [(0xFFFF, 1#16)] a.toNat = Memory.read [(0xFFFF, 1#16)] a.toNat :=
  ⟨by decide, fun _ => rfl⟩
theorem witness_OnlyStoresChangeMemory :
    storesToMemory (.ld 0 0#16) = false ∧ ∃ t, exec (.ld 0 0#16) State.reset = .next t := ⟨rfl, _, rfl⟩
theorem witness_OnlyDestinationRegistersChange :
    (0 : RegNum) ∉ destinations (.jsr 2#16) ∧ ∃ t, exec (.jsr 2#16) State.reset = .next t := ⟨by decide, _, rfl⟩
theorem witness_StepRunsTheDecodedInstruction :
    Ready (ready 0x3000#16 0x1283#16 [] []) ∧
      decode ((ready 0x3000#16 0x1283#16 [] []).memRead 0x3000#16) = .ok (.addReg 1 2 3) :=
  ⟨⟨rfl, rfl, rfl⟩, by decide⟩
theorem witness_StepRunsTheDecodedInstruction_reserved :
    Ready (ready 0xFFFF#16 0xDFFF#16 [] []) ∧
      decode ((ready 0xFFFF#16 0xDFFF#16 [] []).memRead 0xFFFF#16) = .error .illegalInstruction :=
  ⟨⟨rfl, rfl, rfl⟩, by decide⟩
theorem witness_NoStepUnlessRunning : State.reset.status ≠ .running := by decide
theorem witness_StopRequestIsHonouredAtTheCheckPoint_free :
    ({ ready 0#16 0#16 [] [] with stopRequest := true } : State).status = .running ∧
      ({ ready 0#16 0#16 [] [] with stopRequest := true } : State).hold = none ∧
      ({ ready 0#16 0#16 [] [] with stopRequest := true } : State).stopRequest = true := ⟨rfl, rfl, rfl⟩
theorem witness_StopRequestIsHonouredAtTheCheckPoint_hold :
    ((ready 0#16 0#16 [] []).setHold (some .getc)).status = .running ∧
      ((ready 0#16 0#16 [] []).setHold (some .getc)).hold = some .getc := ⟨rfl, rfl⟩
theorem witness_FetchedWordDecidesTheOutcome_halted :
    Ready (ready 0#16 0xF025#16 [] []) ∧ ∃ t, step (ready 0#16 0xF025#16 [] []) = .next t ∧ t.status = .halted :=
  ⟨⟨rfl, rfl, rfl⟩, _, rfl, rfl⟩
theorem witness_FetchedWordDecidesTheOutcome_unsupported :
    Ready (ready 0#16 0xF01F#16 [] []) ∧ ∃ t, step (ready 0#16 0xF01F#16 [] []) = .next t ∧ t.status = .faulted :=
  ⟨⟨rfl, rfl, rfl⟩, _, rfl, rfl⟩
theorem witness_FetchedWordDecidesTheOutcome_illegal :
    Ready (ready 0#16 0xD000#16 [] []) ∧ ∃ t, step (ready 0#16 0xD000#16 [] []) = .next t ∧ t.status = .faulted :=
  ⟨⟨rfl, rfl, rfl⟩, _, rfl, rfl⟩
theorem witness_FetchedWordDecidesTheOutcome_running :
    Ready (ready 0#16 0xCFFF#16 [] []) ∧ ∃ t, step (ready 0#16 0xCFFF#16 [] []) = .next t ∧ t.status = .running :=
  ⟨⟨rfl, rfl, rfl⟩, _, rfl, rfl⟩
theorem witness_HaltedIsLeftByResetOnly :
    State.reset.halt.status = .halted ∧
      ∃ t, hostAct (.reset Config.namedReset) State.reset.halt = .next t ∧ t.status ≠ .halted :=
  ⟨rfl, _, rfl, by decide⟩
theorem reset_inv : Inv State.reset :=
  ⟨by decide, by decide, by rintro ⟨⟩, by rintro ⟨⟩, by rintro ⟨⟩⟩
/-- A state of a run, not only reset, meets the invariant. -/
theorem ready_inv : Inv (ready 0x3000#16 0x3401#16 [] [(2, 0xBEEF#16)]) :=
  ⟨by decide, by decide, by rintro ⟨⟩, fun _ => rfl, by rintro ⟨⟩⟩
theorem witness_InvariantKeptByEveryStep :
    Inv (ready 0x3000#16 0x3401#16 [] [(2, 0xBEEF#16)]) ∧
      ∃ t, step (ready 0x3000#16 0x3401#16 [] [(2, 0xBEEF#16)]) = .next t ∧ t.memRead 0x3002#16 = 0xBEEF#16 :=
  ⟨ready_inv, _, rfl, by decide⟩
theorem witness_ReachableStatesSatisfyTheInvariant : Reachable (loadImage 0x3000#16 [1#16] State.reset) :=
  .host (.load 0x3000#16 [1#16]) (.reset Config.namedReset) rfl
theorem witness_InvariantKeptByHostActions :
    Inv State.reset ∧ ∃ t, hostAct (.load 0x3000#16 [1#16]) State.reset = .next t := ⟨reset_inv, _, rfl⟩
theorem witness_BranchIsTakenOnARequestedFlag_taken :
    true = true ∧ (readyCC 0#16 0#16 0x8000#16).cc.n = true := by decide
theorem witness_BranchIsTakenOnARequestedFlag_not_taken :
    ¬((true = false ∧ true = false ∧ true = false) ∨ (true = true ∧ State.reset.cc.n = true) ∨
      (true = true ∧ State.reset.cc.z = true) ∨ (true = true ∧ State.reset.cc.p = true)) := by decide
theorem witness_StoresReplaceTheAddressedWord : State.reset.mem.wf = true := by decide
theorem witness_TrapRunsTheServiceOfItsVector : 0x1F#8 ∉ serviceVectors ∧ 0x26#8 ∉ serviceVectors := by decide
theorem witness_TrapCompletesItsService_input :
    ({ State.reset with input := [0x41#8] } : State).input = 0x41#8 :: [] := rfl
theorem witness_TrapCompletesItsService_empty_string : State.reset.memRead (State.reset.reg 0) = 0#16 := by decide
theorem witness_InputServicesTakeTheFrontCharacter :
    ({ State.reset with input := [0xFF#8, 0x00#8] } : State).input = 0xFF#8 :: [0x00#8] := rfl
theorem witness_InputServicesHoldOnAnEmptyStream_getc :
    ((ready 0#16 0#16 [] []).setHold (some .getc)).input = [] ∧
      ((ready 0#16 0#16 [] []).setHold (some .getc)).status = .running ∧
      ((ready 0#16 0#16 [] []).setHold (some .getc)).hold = some .getc := ⟨rfl, rfl, rfl⟩
theorem witness_SuppliedCharacterCompletesTheHold_getc :
    ((ready 0#16 0#16 [] []).setHold (some .getc)).status = .running ∧
      ((ready 0#16 0#16 [] []).setHold (some .getc)).input = [] ∧
      ∃ u, hostAct (.supply 0x41#8) ((ready 0#16 0#16 [] []).setHold (some .getc)) = .next u := ⟨rfl, rfl, _, rfl⟩
theorem witness_SuppliedCharacterCompletesTheHold_in :
    ((ready 0#16 0#16 [] []).setHold (some .inEcho)).status = .running ∧
      ((ready 0#16 0#16 [] []).setHold (some .inEcho)).input = [] ∧
      ∃ u, hostAct (.supply 0x41#8) ((ready 0#16 0#16 [] []).setHold (some .inEcho)) = .next u := ⟨rfl, rfl, _, rfl⟩

/-- A state whose R0 points at a string of two words that wraps past the top of memory. -/
def stringState : State := ready 0x3001#16 0xF022#16 [(0xFFFF#16, 0x6548#16), (0#16, 0x006C#16)] [(0, 0xFFFF#16)]

theorem witness_PutsWritesTheStringAndAdvancesThePC :
    (∀ i, i < 2 → stringState.memRead (stringState.reg 0 + BitVec.ofNat 16 i) ≠ 0#16) ∧
      stringState.memRead (stringState.reg 0 + BitVec.ofNat 16 2) = 0#16 := by decide
theorem witness_PutspWritesTwoCharactersPerWord :
    (∀ i, i < 2 → stringState.memRead (stringState.reg 0 + BitVec.ofNat 16 i) ≠ 0#16) ∧
      stringState.memRead (stringState.reg 0 + BitVec.ofNat 16 2) = 0#16 := by decide
theorem witness_StringServicesEndIffSomeWordIsZero_ends : ∃ b, State.reset.memRead b = 0#16 := ⟨0#16, by decide⟩

/-- `n` words from address `lo` up, all 0x0001. -/
def filledFrom (lo : Nat) : Nat → Memory
  | 0 => []
  | n + 1 => (lo, 1#16) :: filledFrom (lo + 1) n

theorem filledFrom_read (n lo a : Nat) (hlo : lo ≤ a) (ha : a < lo + n) : (filledFrom lo n).read a = 1#16 := by
  induction n generalizing lo with
  | zero => omega
  | succ n ih =>
    unfold filledFrom Memory.read
    split
    · rfl
    · exact ih (lo + 1) (by omega) (by omega)

/-- A Running core that holds in `h` with no zero word in memory. -/
def fullState (h : Hold) : State :=
  { State.reset with mem := filledFrom 0 65536, status := .running, hold := some h }

theorem fullState_no_zero (h : Hold) (b : Word) : (fullState h).memRead b ≠ 0#16 := by
  have := filledFrom_read 65536 0 b.toNat (Nat.zero_le _) (by have := b.isLt; omega)
  intro hz
  rw [State.memRead, fullState, this] at hz
  exact absurd hz (by decide)

theorem witness_UnterminatedPutsNeverCompletes :
    (fullState (.puts 0#16)).status = .running ∧ (fullState (.puts 0#16)).hold = some (.puts 0#16) ∧
      ∀ b, (fullState (.puts 0#16)).memRead b ≠ 0#16 := ⟨rfl, rfl, fullState_no_zero _⟩
theorem witness_UnterminatedPutspNeverCompletes :
    (fullState (.putsp 0#16)).status = .running ∧ (fullState (.putsp 0#16)).hold = some (.putsp 0#16) ∧
      ∀ b, (fullState (.putsp 0#16)).memRead b ≠ 0#16 := ⟨rfl, rfl, fullState_no_zero _⟩
theorem witness_ResetLeavesZeroMemoryAndStopped : State.reset.halt.status ≠ .running := by decide
theorem witness_LoadPlacesTheImageAtItsOrigin :
    State.reset.mem.wf = true ∧ State.reset.status = .stopped ∧ State.reset.loaded = false ∧
      0 < [1#16, 2#16].length ∧ [1#16, 2#16].length ≤ 0 + 65536 ∧
      (∀ k, k < [1#16, 2#16].length → (5#16 : Word) ≠ 0xFFFF#16 + BitVec.ofNat 16 k) := by decide
/-- An image of 65537 words: word 1 stands, word 0 is overwritten. -/
theorem witness_LoadPlacesTheImageAtItsOrigin_long :
    1 < (List.replicate 65537 (1#16 : Word)).length ∧ (List.replicate 65537 (1#16 : Word)).length ≤ 1 + 65536 := by
  rw [List.length_replicate]; decide
theorem witness_ImageFileLoadsWholeOrFails :
    State.reset.status = .stopped ∧ State.reset.loaded = false ∧ [0x30#8].length < 2 ∧
      [0x30#8, 0x00#8, 0xF0#8].length % 2 = 1 ∧ 2 ≤ [0x30#8, 0x00#8].length ∧ [0x30#8, 0x00#8].length % 2 = 0 := by
  decide
theorem witness_HostControlsFollowStatus :
    (loadImage 0#16 [] State.reset).loaded = true ∧ (loadImage 0#16 [] State.reset).status = .stopped ∧
      State.reset.loaded = false ∧ State.reset.halt.status ≠ .stopped ∧
      (State.reset.raiseError .unsupportedTrap).status = .faulted ∧ State.reset.status ≠ .faulted ∧
      State.reset.status ≠ .running ∧ (ready 0#16 0#16 [] []).status = .running := by decide
theorem witness_HostControlsFollowStatus_stop_then_start :
    (startCore (loadImage 0#16 [] State.reset)).loaded = true ∧ Ready (startCore (loadImage 0#16 [] State.reset)) :=
  ⟨rfl, rfl, rfl, rfl⟩
theorem witness_HostLeavesARunningCoreAlone :
    (ready 0#16 0#16 [] []).status = .running ∧ ∃ t, hostAct .stop (ready 0#16 0#16 [] []) = .next t :=
  ⟨rfl, _, rfl⟩
theorem witness_PutsPrintsAStringzBlock :
    State.reset.mem.wf = true ∧ (∀ c ∈ [0x48#8, 0x69#8], c ≠ 0#8) ∧ [0x48#8, 0x69#8].length < 65536 ∧
      (AsmStatement.stringz [0x48#8, 0x69#8]).emit [] 0 = .ok [0x48#16, 0x69#16, 0#16] := by decide

end Sys2Proof.Tests
end

section
/-! SUPPORT. Sign extension and zero extension as numbers (R13): the unsigned reading of each, and the signed reading of
`sext`. -/

namespace Sys2Proof.Machine

/-- Zeros above the value: the unsigned reading stays (R13). -/
theorem zext_toNat {k : Nat} (hk : k ≤ 16) (v : BitVec k) : (zext v).toNat = v.toNat :=
  BitVec.toNat_setWidth_of_le hk

/-- The copies of the top bit above the value weigh `2^16 - 2^k` (R13). -/
theorem sext_toNat {k : Nat} (hk : k ≤ 16) (v : BitVec k) :
    (sext v).toNat = v.toNat + if v.msb then 65536 - 2 ^ k else 0 := by
  rw [sext, BitVec.toNat_signExtend, BitVec.toNat_setWidth_of_le hk]

/-- Sign extension keeps the signed reading (R13). -/
theorem sext_toInt {k : Nat} (hk : k ≤ 16) (v : BitVec k) : (sext v).toInt = v.toInt :=
  BitVec.toInt_signExtend_of_le hk

/-- Below `2^(k-1)` the top bit is 0 and the extension is read as the value (R13). -/
theorem sext_toInt_of_lt {k : Nat} (hk : k ≤ 16) {v : BitVec k} (hv : v.toNat < 2 ^ (k - 1)) :
    (sext v).toInt = v.toNat := by
  have hmsb : v.msb = false := by rw [BitVec.msb_eq_decide, decide_eq_false (Nat.not_le.2 hv)]
  rw [sext_toInt hk, BitVec.toInt_eq_toNat_of_msb hmsb]

/-- From `2^(k-1)` on the top bit is 1 and the extension is read as the value less `2^k` (R13). -/
theorem sext_toInt_of_le {k : Nat} (hk : k ≤ 16) {v : BitVec k} (hv : 2 ^ (k - 1) ≤ v.toNat) :
    (sext v).toInt = (v.toNat : Int) - 2 ^ k := by
  have hmsb : v.msb = true := by rw [BitVec.msb_eq_decide, decide_eq_true hv]
  rw [sext_toInt hk, BitVec.toInt_eq_msb_cond, if_pos hmsb, Nat.cast_pow, Nat.cast_ofNat]

/-- Settles O7: the top bit selects the unsigned reading, and the size of the value selects the signed one. -/
theorem signExtensionReplicatesTheTopBit : Obligations.SignExtensionReplicatesTheTopBit := by
  refine ⟨fun k v _ hk => ⟨fun htop => ?low, fun htop => ?high, sext_toInt_of_lt hk, sext_toInt_of_le hk,
    zext_toNat hk v⟩, by decide⟩
  case low => simp [sext_toNat hk, BitVec.msb_eq_getLsbD_last, htop]
  case high => simp [sext_toNat hk, BitVec.msb_eq_getLsbD_last, htop]

end Sys2Proof.Machine
end

section
/-! SUPPORT. Each flag `setcc` writes, read off the bits of the value (R27). -/

namespace Sys2Proof.Machine

/-- N is bit 15. -/
theorem flagsOf_n_iff (v : Word) : (flagsOf v).n = true ↔ v.getLsbD 15 = true := Iff.rfl

/-- Z tests the whole word against 0x0000. -/
theorem flagsOf_z_iff (v : Word) : (flagsOf v).z = true ↔ v = 0#16 := decide_eq_true_iff

/-- P is what N and Z leave over. -/
theorem flagsOf_p_iff (v : Word) : (flagsOf v).p = true ↔ v.getLsbD 15 = false ∧ v ≠ 0#16 := by
  rw [flagsOf, Bool.and_eq_true, Bool.not_eq_true', decide_eq_true_iff]

/-- Settles O9: the signed reading is `flagsOf_reflect`, the reading by bits one lemma per flag. -/
theorem setccReflectsTheSignedValue : Obligations.SetccReflectsTheSignedValue := fun _ v =>
  ⟨flagsOf_reflect v, flagsOf_n_iff v, flagsOf_z_iff v, flagsOf_p_iff v, rfl⟩

end Sys2Proof.Machine
end

section
/-! SUPPORT. The register file: what a register reads after a write to the same and to another register (R20). -/

namespace Sys2Proof.Machine

/-- A register holds the Word written to it, whichever register it is. -/
theorem State.reg_setReg_same (s : State) (r : RegNum) (v : Word) : (s.setReg r v).reg r = v := by
  rw [State.setReg_reg, if_pos rfl]

/-- A register write reaches no other register. -/
theorem State.reg_setReg_other (s : State) {r q : RegNum} (v : Word) (hq : q ≠ r) :
    (s.setReg r v).reg q = s.reg q := by
  rw [State.setReg_reg, if_neg hq.symm]

/-- Settles O16: the register written and the others read as `State.setReg_reg` says. -/
theorem everyRegisterHoldsWhatIsWritten : Obligations.EveryRegisterHoldsWhatIsWritten := fun s r v =>
  ⟨s.reg_setReg_same r v, fun _ hq => s.reg_setReg_other v hq, rfl⟩

end Sys2Proof.Machine
end

section
/-! SUPPORT. Memory as the fetch sees it (R53, R120). -/

namespace Sys2Proof.Machine

/-- A fetch with PC at `a` takes the Word memory reads there. -/
theorem fetch_setPc_ir (s : State) (a : Word) : (fetch (s.setPc a)).ir = s.memRead a := by
  rw [fetch_ir, State.setPc_pc, State.setPc_memRead]

/-- Settles O13: the address written, the others and the fetch read as the memory lemmas say; canonical form is what
makes a written default Word read back. -/
theorem memWriteReplacesOneWord : Obligations.MemWriteReplacesOneWord := by
  intro s a v hwf
  have hsame : (s.memWrite a v).memRead a = v := State.memRead_memWrite_same hwf a v
  exact ⟨hsame, fun _ hb => s.memRead_memWrite_other v hb.symm, rfl, (fetch_setPc_ir _ a).trans hsame⟩

end Sys2Proof.Machine
end

section
/-! SUPPORT. A word and a schema: a word is the packed schema exactly when each of its fields has the value the schema
gives it (R90, R91), so encoding and decoding are both statements about the fields of one word. -/

namespace Sys2Proof.Machine

/-- Every field of a schema stands in the word at its own place, counted from bit 0 by the fields after it (R90). -/
def FieldsAre (w : Word) : List SchemaField → Prop
  | [] => True
  | f :: fs => field w (schemaWidth fs + f.width - 1) f.width = f.value.setWidth f.width ∧ FieldsAre w fs

@[simp] theorem schemaWidth_nil : schemaWidth [] = 0 := rfl

@[simp] theorem schemaWidth_cons (f : SchemaField) (fs : List SchemaField) :
    schemaWidth (f :: fs) = f.width + schemaWidth fs := List.sum_cons

/-- The field `s` wide above `k` other bits, as a quotient and a remainder. -/
theorem field_above_toNat (w : Word) (k s : Nat) : (field w (k + s - 1) s).toNat = w.toNat / 2 ^ k % 2 ^ s := by
  rcases Nat.eq_zero_or_pos s with rfl | hs
  · rw [field_toNat, Nat.pow_zero, Nat.mod_one, Nat.mod_one]
  · rw [field_toNat, show k + s - 1 + 1 - s = k by omega]

/-- A number is a high part and a low digit exactly when its quotient and remainder are. -/
theorem mul_add_mod_eq_iff (a v k m : Nat) : a * 2 ^ k + v % 2 ^ k = m ↔ a = m / 2 ^ k ∧ v % 2 ^ k = m % 2 ^ k := by
  rw [@eq_comm Nat a, @eq_comm Nat (v % 2 ^ k), Nat.div_mod_unique (Nat.two_pow_pos k),
    and_iff_left (Nat.mod_lt v (Nat.two_pow_pos k)), Nat.add_comm, Nat.mul_comm]

/-- A number is what fields pack to exactly when its high part is what was packed before them and each field is in its
place. -/
theorem packNat_eq_iff (w : Word) (acc : Nat) (fs : List SchemaField) :
    packNat acc fs = w.toNat ↔ acc = w.toNat / 2 ^ schemaWidth fs ∧ FieldsAre w fs := by
  induction fs generalizing acc with
  | nil => simp [packNat, FieldsAre]
  | cons f fs ih =>
    rw [packNat, ih, mul_add_mod_eq_iff, Nat.div_div_eq_div_mul, ← Nat.pow_add, and_assoc]
    rw [FieldsAre, schemaWidth_cons, Nat.add_comm f.width, ← BitVec.toNat_inj, field_above_toNat, BitVec.toNat_setWidth,
      @eq_comm Nat (f.value.toNat % 2 ^ f.width)]

/-- The word of a schema of 16 bits is the one with its fields (R90). -/
theorem pack_eq_iff {fs : List SchemaField} (h : schemaWidth fs = 16) (w : Word) : pack fs = w ↔ FieldsAre w fs := by
  rw [← BitVec.toNat_inj, pack_toNat h, packNat_eq_iff, h, Nat.div_eq_of_lt w.isLt, and_iff_right rfl]

/-- A well-formed instruction encodes to the word with the fields of its schema, and to no other. -/
theorem encode_eq_ok_iff {i : Instr} (h : i.WellFormed) (w : Word) : encode i = .ok w ↔ FieldsAre w (schema i) := by
  have hschema : i.hasSchema = true := (Bool.and_eq_true_iff.1 h).2
  rw [encode_of_wellFormed h, Except.ok.injEq, pack_eq_iff (schemaWidth_of_hasSchema i hschema)]

end Sys2Proof.Machine
end

section
/-! SUPPORT. The values a schema packs, as the decoder reads them (R74, R77, R91). -/

namespace Sys2Proof.Machine

/-- The opcode is the topmost field of every schema (R71, R91). -/
@[simp] theorem field_opcode (w : Word) : field w 15 4 = opcodeOf w := rfl

/-- A register number packed is the register number read. -/
@[simp] theorem field_eq_regValue_iff (w : Word) (p : Nat) (r : RegNum) :
    field w p 3 = (regValue r).setWidth 3 ↔ regField w p = r := by
  have hr : (regValue r).setWidth 3 = BitVec.ofFin r := by revert r; decide
  rw [hr]
  exact ⟨congrArg BitVec.toFin, fun h => BitVec.eq_of_toFin_eq h⟩

/-- A field of one bit has a value exactly when the bit is the value's own. -/
@[simp] theorem field_one_eq_iff (w : Word) (p : Nat) (v : BitVec 1) : field w p 1 = v ↔ w.getLsbD p = v[0] := by
  constructor
  · rintro rfl
    simp [field]
  · intro h
    ext i hi
    obtain rfl : i = 0 := by omega
    simpa [field] using h

/-- A request bit's value is that bit (R91). -/
@[simp] theorem bitValue_getElem_zero (b : Bool) : (bitValue b)[0] = b := by cases b <;> rfl

/-- The low bits of a sign extension are the field extended. -/
theorem setWidth_sext {k : Nat} (hk : k ≤ 16) (v : BitVec k) : (sext v).setWidth k = v := by
  ext i hi
  rw [BitVec.getElem_setWidth, sext, BitVec.getLsbD_signExtend]
  simp [hi, show i < 16 by omega]

/-- The low bits of a zero extension are the field extended. -/
theorem setWidth_zext {k : Nat} (hk : k ≤ 16) (v : BitVec k) : (zext v).setWidth k = v := by
  rw [zext, BitVec.setWidth_setWidth_of_le _ hk, BitVec.setWidth_eq]

/-- A packed signed operand in its field's range is what the field's sign extension gives. -/
theorem field_eq_setWidth_iff_sext {k : Nat} (hk : 1 ≤ k) (hk' : k ≤ 16) {v : Word} (hv : fitsSigned k v = true)
    (w : Word) (p : Nat) : field w p k = v.setWidth k ↔ sext (field w p k) = v := by
  constructor
  · intro h
    exact sext_eq_of_fits hk hk' hv (by rw [h, BitVec.toNat_setWidth])
  · rintro rfl
    rw [setWidth_sext hk']

end Sys2Proof.Machine
end

section
/-! SUPPORT. Fields under a mask, and the ignored bits of each opcode as fields (R79, R92). -/

namespace Sys2Proof.Machine

/-- The word with `v` in the field whose most significant bit is `p`, and zeros elsewhere. -/
def inField (p : Nat) {s : Nat} (v : BitVec s) : Word := v.setWidth 16 <<< (p + 1 - s)

/-- The word with ones in the field `field w p s` reads, and zeros elsewhere. -/
def fieldMask (p s : Nat) : Word := inField p (BitVec.allOnes s)

/-- A field has a value exactly when the bits under the field's mask are that value's. -/
theorem field_eq_iff_and_fieldMask {p s : Nat} (hp : p < 16) (hs : s ≤ p + 1) (w : Word) (v : BitVec s) :
    field w p s = v ↔ w &&& fieldMask p s = inField p v := by
  constructor
  · rintro rfl
    ext i hi
    rcases Nat.lt_or_ge i (p + 1 - s) with hlt | hge
    · simp [fieldMask, inField, hlt]
    · simp [fieldMask, inField, field, hge.not_gt, Nat.add_sub_cancel' hge, hi, Bool.and_comm]
  · intro h
    ext i hi
    have hbit := congrArg (·.getLsbD (p + 1 - s + i)) h
    simpa [fieldMask, inField, field, hi, show p + 1 - s + i < 16 by omega, show i < 16 by omega] using hbit

/-- A field is zero exactly when all bits under its mask are. -/
theorem field_eq_zero_iff {p s : Nat} (hp : p < 16) (hs : s ≤ p + 1) (w : Word) :
    field w p s = 0#s ↔ w &&& fieldMask p s = 0#16 := by
  rw [field_eq_iff_and_fieldMask hp hs, inField, BitVec.setWidth_zero, BitVec.zero_shiftLeft]

/-- Two fields are zero exactly when all bits under both masks are. -/
theorem fields_eq_zero_iff {p s q t : Nat} (hp : p < 16) (hs : s ≤ p + 1) (hq : q < 16) (ht : t ≤ q + 1) (w : Word) :
    field w p s = 0#s ∧ field w q t = 0#t ↔ w &&& (fieldMask p s ||| fieldMask q t) = 0#16 := by
  rw [field_eq_zero_iff hp hs, field_eq_zero_iff hq ht, BitVec.and_or_distrib_left, BitVec.or_eq_zero_iff]

end Sys2Proof.Machine
end

section
/-! SUPPORT. Decode against encode: a word with the fields of a well-formed variant decodes to it (R87), and a decoded word
has the fields of its instruction up to the ignored bits (R79, R92). -/

namespace Sys2Proof.Machine

/-- A decoded instruction is well formed: its signed operands are sign extensions of their fields (R76, R77). -/
theorem wellFormed_of_decode {w : Word} {i : Instr} (h : decode w = .ok i) : i.WellFormed := by
  unfold decode at h
  repeat' split at h
  all_goals cases h
  all_goals simp [Instr.WellFormed, Instr.wellFormed, Instr.operandsInRange, Instr.hasSchema, fitsSigned_sext]

/-- A word with the fields of a well-formed variant decodes to that variant: the decoder tests the opcode and the mode bit
the schema fixes, and reads the operands where the schema puts them. -/
theorem decode_of_fieldsAre {w : Word} {i : Instr} (hwf : i.WellFormed) (hv : i.isVariant = true)
    (h : FieldsAre w (schema i)) : decode w = .ok i := by
  have hrange : i.operandsInRange = true := (Bool.and_eq_true_iff.1 hwf).1
  cases i with
  | addReg | andReg | not | jsrr | jmp | rti =>
    simp [FieldsAre, schema, schemaOpReg, schemaJmp] at h
    simp [decode, h]
  | trap =>
    simp [FieldsAre, schema, schemaTrap, setWidth_zext] at h
    simp [decode, h]
  | addImm _ _ v | andImm _ _ v =>
    have hfits : fitsSigned 5 v = true := hrange
    simp [FieldsAre, schema, schemaOpImm, field_eq_setWidth_iff_sext, hfits] at h
    simp [decode, h]
  | ldr _ _ v | str _ _ v =>
    have hfits : fitsSigned 6 v = true := hrange
    simp [FieldsAre, schema, schemaBase, field_eq_setWidth_iff_sext, hfits] at h
    simp [decode, h]
  | br _ _ _ v | ld _ v | ldi _ v | lea _ v | st _ v | sti _ v =>
    have hfits : fitsSigned 9 v = true := hrange
    simp [FieldsAre, schema, schemaPcRel, field_eq_setWidth_iff_sext, hfits] at h
    simp [decode, h]
  | jsr v =>
    have hfits : fitsSigned 11 v = true := hrange
    simp [FieldsAre, schema, field_eq_setWidth_iff_sext, hfits] at h
    simp [decode, h]
  | reserved | ret | trapGetc | trapOut | trapPuts | trapIn | trapPutsp | trapHalt => cases hv

/-- A decoded word has the fields of its instruction exactly when its ignored bits are canonical: every other field is the
one the decoder read. -/
theorem fieldsAre_schema_iff_canonicalWord {w : Word} {i : Instr} (h : decode w = .ok i) :
    FieldsAre w (schema i) ↔ CanonicalWord w := by
  unfold decode at h
  split at h
  -- ADD and AND: bits [4:3] are ignored in register mode, none in immediate mode.
  case h_2 hop | h_6 hop =>
    split at h
    case isTrue hm =>
      cases h
      have hmode : w[5] = true := hm
      simp [FieldsAre, schema, schemaOpImm, CanonicalWord, ignoredBits, hop, hmode, setWidth_sext]
    case isFalse hm =>
      cases h
      have hmode : w[5] = false := Bool.eq_false_of_not_eq_true hm
      have hpad : field w 4 2 = 0#2 ↔ w &&& 0x0018#16 = 0#16 :=
        field_eq_zero_iff (by decide) (by decide) w
      simp [FieldsAre, schema, schemaOpReg, CanonicalWord, ignoredBits, hop, hmode, hpad]
  -- JSR ignores no bit, JSRR bits [10:9] and [5:0].
  case h_5 hop =>
    split at h
    case isTrue hm =>
      cases h
      have hmode : w[11] = true := hm
      simp [FieldsAre, schema, CanonicalWord, ignoredBits, hop, hmode, setWidth_sext]
    case isFalse hm =>
      cases h
      have hmode : w[11] = false := Bool.eq_false_of_not_eq_true hm
      have hpad : field w 10 2 = 0#2 ∧ field w 5 6 = 0#6 ↔ w &&& 0x063F#16 = 0#16 :=
        fields_eq_zero_iff (by decide) (by decide) (by decide) (by decide) w
      simp [FieldsAre, schema, CanonicalWord, ignoredBits, hop, hmode, hpad]
  -- RTI: every bit below the opcode is ignored.
  case h_9 hop =>
    cases h
    have hpad : field w 11 12 = 0#12 ↔ w &&& 0x0FFF#16 = 0#16 :=
      field_eq_zero_iff (by decide) (by decide) w
    simp [FieldsAre, schema, CanonicalWord, ignoredBits, hop, hpad]
  -- NOT: bits [5:0] are ignored, and the encoder writes ones there.
  case h_10 hop =>
    cases h
    have hpad : field w 5 6 = 0x3F#6 ↔ w &&& 0x003F#16 = 0x003F#16 :=
      field_eq_iff_and_fieldMask (by decide) (by decide) w _
    simp [FieldsAre, schema, CanonicalWord, ignoredBits, hop, hpad]
  -- JMP: bits [11:9] and [5:0] are ignored.
  case h_13 hop =>
    cases h
    have hpad : field w 11 3 = 0#3 ∧ field w 5 6 = 0#6 ↔ w &&& 0x0E3F#16 = 0#16 :=
      fields_eq_zero_iff (by decide) (by decide) (by decide) (by decide) w
    simp [FieldsAre, schema, schemaJmp, CanonicalWord, ignoredBits, hop, hpad]
  -- TRAP: bits [11:8] are ignored.
  case h_15 hop =>
    cases h
    have hpad : field w 11 4 = 0#4 ↔ w &&& 0x0F00#16 = 0#16 :=
      field_eq_zero_iff (by decide) (by decide) w
    simp [FieldsAre, schema, schemaTrap, CanonicalWord, ignoredBits, hop, hpad, setWidth_zext]
  case h_16 => cases h
  -- The other opcodes ignore no bit.
  case h_1 hop | h_3 hop | h_4 hop | h_7 hop | h_8 hop | h_11 hop | h_12 hop | h_14 hop =>
    cases h
    simp [FieldsAre, schema, schemaPcRel, schemaBase, CanonicalWord, ignoredBits, hop, setWidth_sext]

/-- Settles O1: both encoding to a word and decoding from it are read off the word's fields. -/
theorem decodeOfEncodeGivesTheInstructionBack : Obligations.DecodeOfEncodeGivesTheInstructionBack := by
  constructor
  · intro i hwf hv
    have henc := encode_of_wellFormed hwf
    exact ⟨_, henc, decode_of_fieldsAre hwf hv ((encode_eq_ok_iff hwf _).1 henc)⟩
  · intro w i hdec
    rw [encode_eq_ok_iff (wellFormed_of_decode hdec), fieldsAre_schema_iff_canonicalWord hdec]

end Sys2Proof.Machine
end

section
/-! SUPPORT. The cycle after the check-point (R120): what `decodeAndExecute` does with each answer of the decoder, and the
step of a ready core in each of the two cases. -/

namespace Sys2Proof.Machine

/-- A decoded word is executed in the state it was fetched into (R120). -/
theorem decodeAndExecute_of_decode_ok {s : State} {i : Instr} (h : decode s.ir = .ok i) :
    decodeAndExecute s = exec i s := by
  rw [decodeAndExecute, h]

/-- A word that does not decode raises IllegalInstruction (R231). -/
theorem decodeAndExecute_of_decode_error {s : State} (h : decode s.ir = .error .illegalInstruction) :
    decodeAndExecute s = .next (s.raiseError .illegalInstruction) := by
  rw [decodeAndExecute, h]

/-- A ready core executes the instruction at its PC in the fetched state, where the PC is already incremented (R120). -/
theorem step_of_decode_ok {s : State} {i : Instr} (hs : Ready s) (hi : decode (s.memRead s.pc) = .ok i) :
    step s = exec i (fetch s) :=
  (step_of_ready hs).trans (decodeAndExecute_of_decode_ok hi)

/-- A ready core whose word at the PC does not decode takes IllegalInstruction in the fetched state (R120, R231). -/
theorem step_of_decode_error {s : State} (hs : Ready s)
    (he : decode (s.memRead s.pc) = .error .illegalInstruction) :
    step s = .next ((fetch s).raiseError .illegalInstruction) :=
  (step_of_ready hs).trans (decodeAndExecute_of_decode_error he)

/-- Settles O18: the two answers of the decoder are the two cases of a ready core's step; the states written out are
`fetch` and `raiseError` by definition. -/
theorem stepRunsTheDecodedInstruction : Obligations.StepRunsTheDecodedInstruction := fun _ hs =>
  ⟨fun _ hi => step_of_decode_ok hs hi, fun he => step_of_decode_error hs he⟩

/-- Settles O20: the first test of the cycle. -/
theorem noStepUnlessRunning : Obligations.NoStepUnlessRunning := fun _ h => step_of_not_running h

end Sys2Proof.Machine
end

section
/-! SUPPORT. An image loaded into a core just reset: memory holds its words and zero elsewhere (R260, R262, R265). -/

namespace Sys2Proof.Machine

/-- Reset leaves zero at every address (R260). -/
@[simp] theorem State.resetWith_memRead (p : ResetParams) (x : Word) : (State.resetWith p).memRead x = 0#16 := rfl

/-- The memory reset leaves is canonical. -/
theorem State.resetWith_mem_wf (p : ResetParams) : (State.resetWith p).mem.wf = true := rfl

/-- A core just reset is Stopped and holds no image, so a load is allowed (R262, R267). -/
theorem hostAct_load_resetWith (p : ResetParams) (origin : Word) (ws : List Word) :
    hostAct (.load origin ws) (State.resetWith p) = .next (loadImage origin ws (State.resetWith p)) := rfl

/-- Word `k` of an image of at most 65536 words reads back at `origin + k` (R262). -/
theorem loadImage_memRead_inside {s : State} (h : s.mem.wf = true) (origin : Word) (ws : List Word) {k : Nat}
    (hk : k < ws.length) (hlen : ws.length ≤ 65536) :
    (loadImage origin ws s).memRead (origin + BitVec.ofNat 16 k) = ws[k] :=
  Memory.read_load_inside h origin ws hk (hlen.trans (Nat.le_add_left _ k))

/-- A load leaves every address outside the image alone (R262). -/
theorem loadImage_memRead_outside (s : State) (origin : Word) (ws : List Word) {x : Word}
    (h : ∀ k, k < ws.length → origin + BitVec.ofNat 16 k ≠ x) : (loadImage origin ws s).memRead x = s.memRead x :=
  Memory.read_load_outside s.mem origin ws x h

/-- Settles O56: the three addresses are `0x3000 + k` for the image's indices `k`; every other one is outside the image
and reads what reset left. -/
theorem threeWordImageAtX3000 : Obligations.ThreeWordImageAtX3000 := by
  intro p a b c
  have hin : ∀ (k : Nat) (hk : k < [a, b, c].length),
      (loadImage 0x3000#16 [a, b, c] (State.resetWith p)).memRead (0x3000#16 + BitVec.ofNat 16 k) = [a, b, c][k] :=
    fun _ hk => loadImage_memRead_inside (State.resetWith_mem_wf p) _ _ hk (by simp)
  refine ⟨_, hostAct_load_resetWith p _ _, hin 0 (by simp), hin 1 (by simp), hin 2 (by simp), fun x h0 h1 h2 => ?_⟩
  rw [loadImage_memRead_outside, State.resetWith_memRead]
  intro k hk
  match k, hk with
  | 0, _ => exact h0.symm
  | 1, _ => exact h1.symm
  | 2, _ => exact h2.symm

end Sys2Proof.Machine
end

section
/-! SUPPORT. The invariant along runs: an `Effect` on a Running core keeps it, so every step does; a host action is one of
the changes of `HostChange`, each of which keeps it; an induction over `Reachable` puts the two together. -/

namespace Sys2Proof.Machine

/-- Memory stays canonical through an effect: it is left alone or one word is written. -/
theorem Effect.mem_wf {s t : State} (he : Effect s t) (h : s.mem.wf = true) : t.mem.wf = true := by
  obtain hm | ⟨a, v, hm⟩ := he.mem
  · rw [hm]; exact h
  · rw [hm]; exact Memory.wf_write v h a.isLt

/-- An effect leaves the flags alone or leaves exactly one true (R28). -/
theorem Effect.flags_exactlyOne {s t : State} (he : Effect s t) : t.cc = s.cc ∨ t.cc.ExactlyOne := by
  obtain hc | ⟨v, hc⟩ := he.flags
  · exact .inl hc
  · exact .inr (hc ▸ flagsOf_exactlyOne v)

/-- An effect on a Running core keeps the invariant, provided that a core it halts or faults had neither a hold nor a stop
request standing. -/
theorem Effect.inv {s t : State} (he : Effect s t) (hs : Inv s) (hr : s.status = .running)
    (hend : t.status = .running ∨ s.hold = none ∧ s.stopRequest = false) : Inv t where
  mem := he.mem_wf hs.mem
  flags := by
    obtain hc | hc := he.flags_exactlyOne
    · exact hc ▸ hs.flags
    · exact hc.1
  err hf := by
    obtain ⟨hst, -⟩ | ⟨-, hst, -⟩ | ⟨-, -, herr⟩ := he.outcome
    · rw [hf, hr] at hst; cases hst
    · rw [hf] at hst; cases hst
    · exact herr
  hold hh := by
    obtain ⟨hst, -⟩ | ⟨hhold, hst, -⟩ | ⟨hhold, hst, -⟩ := he.outcome
    · exact hst.trans hr
    all_goals
      obtain hrun | ⟨hfree, -⟩ := hend
      · exact hrun
      · rw [hhold, hfree] at hh; cases hh
  stop hq := by
    obtain hrun | ⟨-, hfree⟩ := hend
    · exact .inl hrun
    · rw [he.stop, hfree] at hq; cases hq

/-- The fetch touches nothing the invariant speaks of (R120). -/
theorem Inv.fetch {s : State} (hs : Inv s) : Inv (fetch s) := ⟨hs.mem, hs.flags, hs.err, hs.hold, hs.stop⟩

/-- Stopping at the check-point keeps the invariant: no step is in progress there (R127). -/
theorem Inv.honourStop {s : State} (hs : Inv s) (hfree : s.hold = none) : Inv (honourStop s) where
  mem := hs.mem
  flags := hs.flags
  err := nofun
  hold hh := by rw [honourStop_hold, hfree] at hh; cases hh
  stop _ := .inr rfl

/-- Settles O24: a step that holds keeps STATUS, and one that executes starts from a ready core, so in both cases the
`Effect` of the step keeps the invariant. -/
theorem invariantKeptByEveryStep : Obligations.InvariantKeptByEveryStep := by
  intro s t hs hstep
  obtain ⟨-, rfl⟩ | ⟨hr, k, -, rfl⟩ | ⟨-, hfree, -, rfl⟩ | ⟨hready, hexec⟩ := step_cases hstep
  · exact hs
  · exact (Effect.continueHold k s).inv hs hr (.inl ((continueHold_status k s).trans hr))
  · exact hs.honourStop hfree
  · have he : Effect (fetch s) t := by
      obtain ⟨i, -, hi⟩ | ⟨-, rfl⟩ := hexec
      · exact exec_effect hi
      · exact Effect.raiseError _ _
    exact he.inv hs.fetch hready.running (.inr ⟨hready.free, hready.unstopped⟩)

/-- What a host action that answers a next state has done, with the condition under which it is allowed (R126). -/
inductive HostChange (s : State) : HostAction → State → Prop
  | reset (p : ResetParams) (h : s.status ≠ .running) : HostChange s (.reset p) (State.resetWith p)
  | load (origin : Word) (ws : List Word) (h : s.status = .stopped) (hl : s.loaded = false) :
      HostChange s (.load origin ws) (loadImage origin ws s)
  | loadFile (order : ByteOrder) {file : Option (List Byte)} {origin : Word} {ws : List Word} (h : s.status = .stopped)
      (hl : s.loaded = false) (hf : file.bind (parseImage order) = some (origin, ws)) :
      HostChange s (.loadFile order file) (loadImage origin ws s)
  | start (h : s.status = .stopped) (hl : s.loaded = true) : HostChange s .start (startCore s)
  | stop (h : s.status = .running) : HostChange s .stop { s with stopRequest := true }
  | stopIgnored (h : s.status ≠ .running) : HostChange s .stop s
  | resume (h : s.status = .faulted) : HostChange s .resume s.resumeAfterError
  | supply (c : Byte) : HostChange s (.supply c) { s with input := s.input ++ [c] }

/-- A load is allowed in a Stopped core with no image, and in no other (R262, R267). -/
theorem loadAllowed_iff (s : State) : loadAllowed s = true ↔ s.status = .stopped ∧ s.loaded = false := by
  simp [loadAllowed]

/-- Every host action that answers a next state is a `HostChange`. -/
theorem hostAct_change {a : HostAction} {s t : State} (h : hostAct a s = .next t) : HostChange s a t := by
  cases a with
  | reset p =>
    simp only [hostAct] at h
    split at h <;> cases h
    exact .reset p ‹_›
  | load origin ws =>
    simp only [hostAct] at h
    split at h <;> cases h
    obtain ⟨hst, hl⟩ := (loadAllowed_iff s).1 ‹_›
    exact .load origin ws hst hl
  | loadFile order file =>
    simp only [hostAct] at h
    split at h
    · obtain ⟨hst, hl⟩ := (loadAllowed_iff s).1 ‹_›
      split at h <;> cases h
      exact .loadFile order hst hl ‹_›
    · cases h
  | start =>
    simp only [hostAct] at h
    split at h <;> cases h
    exact .start (And.left ‹_›) (And.right ‹_›)
  | stop =>
    simp only [hostAct] at h
    split at h <;> cases h
    · exact .stop ‹_›
    · exact .stopIgnored ‹_›
  | resume =>
    simp only [hostAct] at h
    split at h <;> cases h
    exact .resume ‹_›
  | supply c =>
    cases h
    exact .supply c

/-- At most one flag is true after reset, whichever `CC_RESET` names (R30). -/
theorem Flags.ofReset_atMostOne (c : CcReset) : (Flags.ofReset c).AtMostOne := by cases c <;> decide

/-- Settles O25: memory is empty, STATUS is Stopped, nothing holds and no stop request stands. -/
theorem invariantHoldsAtReset : Obligations.InvariantHoldsAtReset := fun p =>
  ⟨State.resetWith_mem_wf p, Flags.ofReset_atMostOne p.cc, nofun, nofun, nofun⟩

/-- Settles O26, by the cases of `HostChange`. -/
theorem invariantKeptByHostActions : Obligations.InvariantKeptByHostActions := by
  intro a s t hs hact
  cases hostAct_change hact with
  | reset p => exact invariantHoldsAtReset p
  | load | loadFile => exact ⟨Memory.wf_load _ _ hs.mem, hs.flags, hs.err, hs.hold, hs.stop⟩
  | start => exact ⟨hs.mem, hs.flags, nofun, fun _ => rfl, nofun⟩
  | stop h => exact ⟨hs.mem, hs.flags, hs.err, hs.hold, fun _ => .inl h⟩
  | stopIgnored => exact hs
  | resume => exact ⟨hs.mem, hs.flags, nofun, fun _ => rfl, fun _ => .inl rfl⟩
  | supply c => exact ⟨hs.mem, hs.flags, hs.err, hs.hold, hs.stop⟩

/-- Settles O27, by induction on how the state is reached: reset starts with the invariant, steps and host actions keep
it. -/
theorem reachableStatesSatisfyTheInvariant : Obligations.ReachableStatesSatisfyTheInvariant := by
  intro s hs
  induction hs with
  | reset p => exact invariantHoldsAtReset p
  | step _ hstep ih => exact invariantKeptByEveryStep _ _ ih hstep
  | host a _ hact ih => exact invariantKeptByHostActions a _ _ ih hact

end Sys2Proof.Machine
end

section
/-! SUPPORT. What a host action leaves of STATUS and of a Running core, and the answers of `hostAct` in each STATUS
(R126). -/

namespace Sys2Proof.Machine

/-- Settles O59: of the actions `HostChange` lists, only the stop request and a supplied character are allowed in a Running
core. -/
theorem hostLeavesARunningCoreAlone : Obligations.HostLeavesARunningCoreAlone := by
  intro a s t hr hact
  cases hostAct_change hact with
  | reset p h => exact absurd hr h
  | load _ _ h | loadFile _ h => rw [hr] at h; cases h
  | start h => rw [hr] at h; cases h
  | stop => exact ⟨rfl, rfl, rfl, rfl, hr⟩
  | stopIgnored h => exact absurd hr h
  | resume h => rw [hr] at h; cases h
  | supply c => exact ⟨rfl, rfl, rfl, rfl, hr⟩

/-- Settles O23: a halted core steps to itself, and of the actions `HostChange` lists, reset alone both is allowed in a
halted core and changes STATUS. -/
theorem haltedIsLeftByResetOnly : Obligations.HaltedIsLeftByResetOnly := by
  intro s hs
  have hnot : s.status ≠ .running := by rw [hs]; decide
  refine ⟨run_of_fixed (step_of_not_running hnot), fun a t hact ht => ?_⟩
  cases hostAct_change hact with
  | reset p => exact ⟨p, rfl⟩
  | load _ _ h | loadFile _ h => rw [hs] at h; cases h
  | start h => rw [hs] at h; cases h
  | stop h => exact absurd h hnot
  | stopIgnored => exact absurd hs ht
  | resume h => rw [hs] at h; cases h
  | supply c => exact absurd hs ht

/-- A load that is allowed writes the image (R262). -/
theorem hostAct_load_of_allowed {s : State} (hst : s.status = .stopped) (hl : s.loaded = false) (origin : Word)
    (ws : List Word) : hostAct (.load origin ws) s = .next (loadImage origin ws s) := by
  simp [hostAct, (loadAllowed_iff s).2 ⟨hst, hl⟩]

/-- A start of a Stopped core with an image (R126, R266). -/
theorem hostAct_start_of_loaded {s : State} (hst : s.status = .stopped) (hl : s.loaded = true) :
    hostAct .start s = .next (startCore s) := if_pos ⟨hst, hl⟩

/-- A stop request of a Running core stands from then on (R127). -/
theorem hostAct_stop_of_running {s : State} (h : s.status = .running) :
    hostAct .stop s = .next { s with stopRequest := true } := if_pos h

/-- At the check-point a stop request stops the core (R127). -/
theorem step_of_stopRequest {s : State} (hr : s.status = .running) (hfree : s.hold = none)
    (hq : s.stopRequest = true) : step s = .next (honourStop s) := by
  simp [step, cycle, hr, hfree, hq]

/-- Settles O21: the check-point is `step_of_stopRequest`; a step that holds goes on and keeps STATUS. -/
theorem stopRequestIsHonouredAtTheCheckPoint : Obligations.StopRequestIsHonouredAtTheCheckPoint :=
  ⟨fun _ => step_of_stopRequest, fun s h hr hh =>
    ⟨_, step_of_hold hr hh, (continueHold_status h s).trans hr⟩⟩

/-- A ready core that is stopped at the check-point and started again is as it was. -/
theorem startCore_honourStop {s : State} (hs : Ready s) : startCore (honourStop { s with stopRequest := true }) = s := by
  obtain ⟨hr, -, hq⟩ := hs
  cases s
  simp_all [startCore, honourStop]

/-- A load where it is not allowed is refused, of words and of a file alike (R262, R267). -/
theorem hostAct_load_refused {s : State} (h : s.status ≠ .stopped ∨ s.loaded = true) (origin : Word) (ws : List Word)
    (order : ByteOrder) (file : Option (List Byte)) :
    hostAct (.load origin ws) s = .refused .loadNotAllowed ∧
      hostAct (.loadFile order file) s = .refused .loadNotAllowed := by
  have hno : loadAllowed s = false := by
    rw [← Bool.not_eq_true, loadAllowed_iff]
    rintro ⟨hst, hl⟩
    obtain h | h := h
    · exact h hst
    · rw [hl] at h; cases h
  simp [hostAct, hno]

/-- Stop, one step, start: the core is back as it was (R127). -/
theorem stop_step_start {s : State} (hl : s.loaded = true) (hs : Ready s) :
    ∃ a b, hostAct .stop s = .next a ∧ step a = .next b ∧ b.status = .stopped ∧ b.pc = s.pc ∧
      hostAct .start b = .next s := by
  have hstart := hostAct_start_of_loaded (s := honourStop { s with stopRequest := true }) rfl hl
  rw [startCore_honourStop hs] at hstart
  exact ⟨_, _, hostAct_stop_of_running hs.running, step_of_stopRequest hs.running hs.free rfl, rfl, rfl, hstart⟩

/-- Settles O58: each clause is the branch of `hostAct` its condition selects. -/
theorem hostControlsFollowStatus : Obligations.HostControlsFollowStatus := by
  refine ⟨fun s order file origin ws h => hostAct_load_refused h origin ws order file, fun s h => ?startRefused,
    fun _ => hostAct_start_of_loaded, fun _ => hostAct_stop_of_running, fun _ h => if_neg h, fun _ => stop_step_start,
    fun _ h => if_pos h, fun _ h => if_neg h, fun _ _ h => if_pos h, fun _ _ => rfl⟩
  case startRefused =>
    refine if_neg ?_
    rintro ⟨hst, hl⟩
    obtain h | h := h
    · exact h hst
    · rw [h] at hl; cases hl

/-- Settles O54: the state reset leaves, field by field; it is Stopped with no image, so a load and then a start are
allowed. -/
theorem resetLeavesZeroMemoryAndStopped : Obligations.ResetLeavesZeroMemoryAndStopped := by
  intro p s hs
  have hn : (Flags.ofReset p.cc).n = true ↔ p.cc = .n := by cases p.cc <;> decide
  have hz : (Flags.ofReset p.cc).z = true ↔ p.cc = .z := by cases p.cc <;> decide
  have hp : (Flags.ofReset p.cc).p = true ↔ p.cc = .p := by cases p.cc <;> decide
  exact ⟨State.resetWith p, if_neg hs, State.resetWith_memRead p, rfl, rfl, rfl, rfl, fun _ => rfl, rfl,
    Flags.ofReset_atMostOne p.cc, hn, hz, hp, rfl, rfl, rfl, rfl, rfl, fun origin ws =>
      ⟨_, _, hostAct_load_resetWith p origin ws, hostAct_start_of_loaded rfl rfl, rfl, rfl⟩⟩

end Sys2Proof.Machine
end

section
/-! SUPPORT. What one instruction can do to the registers, the flags and memory, said once over the instructions, with the
tables of R22, R29 and R55 (`destinations`, `setsFlags`, `storesToMemory`) it agrees with. -/

namespace Sys2Proof.Machine

/-- From `s` to `t` an input service ran: it held on an empty stream, or took a character into R0 (R124, R203, R206). -/
inductive InputChange (s t : State) : Prop
  | holds (hhold : t.hold = some .getc ∨ t.hold = some .inEcho) (hregs : t.regs = s.regs) (hcc : t.cc = s.cc)
      (hmem : t.mem = s.mem)
  | takes (c : Byte) (hregs : t.regs = s.regs.set 0 (zext c)) (hcc : t.cc = flagsOf (zext c)) (hmem : t.mem = s.mem)

/-- GETC is an input service. -/
theorem InputChange.serviceGetc (s : State) : InputChange s (serviceGetc s) := by
  cases h : s.input with
  | nil => rw [serviceGetc_of_empty h]; exact .holds (.inl rfl) rfl rfl rfl
  | cons c rest => rw [serviceGetc_of_cons h]; exact .takes c rfl rfl rfl

/-- IN is an input service. -/
theorem InputChange.serviceIn (s : State) : InputChange s (serviceIn s) := by
  cases h : s.input with
  | nil => rw [serviceIn_of_empty h]; exact .holds (.inr rfl) rfl rfl rfl
  | cons c rest => rw [serviceIn_of_cons h]; exact .takes c rfl rfl rfl

/-- From `s` to `t` instruction `i` wrote a result and the flags, stored a word, took input, or changed neither a register
outside its destinations nor a flag nor memory. -/
inductive InstrChange (i : Instr) (s : State) : State → Prop
  | result {dr : RegNum} (v : Word) (hd : destinations i = [dr]) (hf : setsFlags i = true)
      (hm : storesToMemory i = false) : InstrChange i s (s.writeResult dr v)
  | store (a v : Word) (hf : setsFlags i = false) (hm : storesToMemory i = true) : InstrChange i s (s.memWrite a v)
  | input {t : State} (hd : destinations i = [0]) (hf : setsFlags i = true) (hm : storesToMemory i = false)
      (ht : InputChange s t) : InstrChange i s t
  | other {t : State} (hf : setsFlags i = false) (hm : storesToMemory i = false)
      (hregs : SameRegsBut (destinations i) s t) (hcc : t.cc = s.cc) (hmem : t.mem = s.mem) : InstrChange i s t

/-- A string service touches neither a register nor a flag nor memory (R208, R210). -/
theorem serviceString_frame (chars : Word → List Byte) (h : Word → Hold) (s : State) :
    (serviceString chars h s).regs = s.regs ∧ (serviceString chars h s).cc = s.cc ∧
      (serviceString chars h s).mem = s.mem := by
  cases hn : stringLength s with
  | none => rw [serviceString_of_none hn]; exact ⟨rfl, rfl, rfl⟩
  | some n => rw [serviceString_of_some hn]; exact ⟨rfl, rfl, rfl⟩

/-- States with one register file agree on every register. -/
theorem sameRegsBut_of_regs {s t : State} (h : t.regs = s.regs) (ds : List RegNum) : SameRegsBut ds s t := fun r _ => by
  rw [State.reg, State.reg, h]

/-- A string service as the instruction `i`, which sets no flag and does not store. -/
theorem InstrChange.serviceString {i : Instr} (hf : setsFlags i = false) (hm : storesToMemory i = false)
    (chars : Word → List Byte) (h : Word → Hold) (s : State) : InstrChange i s (serviceString chars h s) := by
  obtain ⟨hregs, hcc, hmem⟩ := serviceString_frame chars h s
  exact .other hf hm (sameRegsBut_of_regs hregs _) hcc hmem

/-- TRAP does what the service of its vector does, and on any other vector takes an error (R200, R232). -/
theorem InstrChange.trap (vect : Byte) (s : State) : InstrChange (.trap vect) s (dispatchTrap vect s) := by
  by_cases hv : vect ∈ serviceVectors
  · simp only [serviceVectors, List.mem_cons, List.not_mem_nil, or_false] at hv
    obtain rfl | rfl | rfl | rfl | rfl | rfl := hv
    · exact .input rfl rfl rfl (InputChange.serviceGetc s)
    · exact .other rfl rfl (fun _ _ => rfl) rfl rfl
    · exact .serviceString rfl rfl _ _ s
    · exact .input rfl rfl rfl (InputChange.serviceIn s)
    · exact .serviceString rfl rfl _ _ s
    · exact .other rfl rfl (fun _ _ => rfl) rfl rfl
  · rw [dispatchTrap_unsupported s hv]
    have hf : setsFlags (.trap vect) = false := by
      simp only [serviceVectors, List.mem_cons, not_or] at hv
      simp [setsFlags, hv]
    exact .other hf rfl (fun _ _ => rfl) rfl rfl

/-- Every instruction is an `InstrChange`. -/
theorem exec_change {i : Instr} {s t : State} (h : exec i s = .next t) : InstrChange i s t := by
  cases i with
  | addReg | addImm | andReg | andImm | not | ld | ldr | ldi | lea => cases h; exact .result _ rfl rfl rfl
  | st | str | sti => cases h; exact .store _ _ rfl rfl
  | br n z p off =>
    simp only [exec, execBr] at h
    split at h <;> cases h <;> exact .other rfl rfl (fun _ _ => rfl) rfl rfl
  | jsr | jsrr =>
    cases h
    refine .other rfl rfl (fun r hr => ?_) rfl rfl
    exact State.reg_setReg_other s s.pc fun h7 => hr (h7 ▸ List.mem_singleton_self _)
  | jmp | ret | rti | reserved | trapOut | trapHalt => cases h; exact .other rfl rfl (fun _ _ => rfl) rfl rfl
  | trap vect => cases h; exact .trap vect s
  | trapGetc => cases h; exact .input rfl rfl rfl (InputChange.serviceGetc s)
  | trapIn => cases h; exact .input rfl rfl rfl (InputChange.serviceIn s)
  | trapPuts | trapPutsp => cases h; exact .serviceString rfl rfl _ _ s

/-- Settles O15: of the changes `InstrChange` lists, only a store touches memory. -/
theorem onlyStoresChangeMemory : Obligations.OnlyStoresChangeMemory := by
  intro i s t hexec hno a
  suffices hmem : t.mem = s.mem by rw [State.memRead, State.memRead, hmem]
  cases exec_change hexec with
  | result => rfl
  | store _ _ _ hm => rw [hno] at hm; cases hm
  | input _ _ _ ht =>
    cases ht with
    | holds _ _ _ hmem | takes _ _ _ hmem => exact hmem
  | other _ _ _ _ hmem => exact hmem

/-- Settles O17: a result goes to the one destination, input to R0, and the other changes of `InstrChange` keep the
registers outside the destinations. -/
theorem onlyDestinationRegistersChange : Obligations.OnlyDestinationRegistersChange := by
  intro i s t hexec r hr
  cases exec_change hexec with
  | @result dr v hd =>
    rw [hd, List.mem_singleton] at hr
    exact State.reg_setReg_other s v hr
  | store => rfl
  | input hd _ _ ht =>
    rw [hd, List.mem_singleton] at hr
    cases ht with
    | holds _ hregs => rw [State.reg, State.reg, hregs]
    | takes c hregs =>
      rw [State.reg, hregs]
      exact State.reg_setReg_other s (zext c) hr
  | other _ _ hregs => exact hregs r hr

/-- Settles O11: a result and an input set all three flags from one value, of which exactly one is true; an input service
that holds and every other change leave them alone. -/
theorem onlyCodeSettingInstructionsChangeFlags : Obligations.OnlyCodeSettingInstructionsChangeFlags := by
  intro i s t hexec
  cases exec_change hexec with
  | result v _ hf => exact ⟨fun hno => absurd (hf.symm.trans hno) nofun, fun _ => .inl (flagsOf_exactlyOne v)⟩
  | store _ _ hf => exact ⟨fun _ => rfl, fun hyes => absurd (hf.symm.trans hyes) nofun⟩
  | input _ hf _ ht =>
    refine ⟨fun hno => absurd (hf.symm.trans hno) nofun, fun _ => ?_⟩
    cases ht with
    | holds hhold _ hcc => exact .inr ⟨hhold, hcc⟩
    | takes c _ hcc => exact .inl (hcc ▸ flagsOf_exactlyOne _)
  | other hf _ _ hcc => exact ⟨fun _ => hcc, fun hyes => absurd (hf.symm.trans hyes) nofun⟩

/-- Settles O10: an effect leaves the flags alone or sets all three from one value; stopping at the check-point and taking
an error leave them alone. -/
theorem stepsKeepFlagsOrLeaveExactlyOne : Obligations.StepsKeepFlagsOrLeaveExactlyOne := by
  intro s t hstep
  obtain ⟨-, rfl⟩ | ⟨-, k, -, rfl⟩ | ⟨-, -, -, rfl⟩ | ⟨-, ⟨i, -, hi⟩ | ⟨-, rfl⟩⟩ := step_cases hstep
  · exact .inl rfl
  · exact (Effect.continueHold k s).flags_exactlyOne
  · exact .inl rfl
  · exact (exec_effect hi).flags_exactlyOne
  · exact .inl rfl

/-- Every instruction answers a next state (R130). -/
theorem exec_total (i : Instr) (s : State) : ∃ t, exec i s = .next t := by
  cases i with
  | br n z p off =>
    simp only [exec, execBr]
    split <;> exact ⟨_, rfl⟩
  | _ => exact ⟨_, rfl⟩

/-- Settles O19: each branch of the cycle is a next state, the last one because every instruction answers one. -/
theorem everyStepAnswersANextState : Obligations.EveryStepAnswersANextState := by
  intro s
  by_cases hr : s.status = .running
  · cases hh : s.hold with
    | some h => exact ⟨_, step_of_hold hr hh⟩
    | none =>
      cases hq : s.stopRequest with
      | true => exact ⟨_, step_of_stopRequest hr hh hq⟩
      | false =>
        have hs : Ready s := ⟨hr, hh, hq⟩
        cases hd : decode (s.memRead s.pc) with
        | ok i =>
          rw [step_of_decode_ok hs hd]
          exact exec_total i _
        | error e =>
          cases e
          exact ⟨_, step_of_decode_error hs hd⟩
  · exact ⟨_, step_of_not_running hr⟩

end Sys2Proof.Machine
end

section
/-! SUPPORT. Which words the decoder refuses, ignores bits of, and gives a well-formed variant for (R76, R78, R79, R82),
which operands the encoder refuses (R93), and the offsets the assembler computes (R104). -/

namespace Sys2Proof.Machine

/-- Settles O3: decoding fails exactly on opcode 1101, the quotient 13 of the word by 4096. -/
theorem decodeFailsOnTheReservedOpcodeOnly : Obligations.DecodeFailsOnTheReservedOpcodeOnly := by
  intro w
  have hop : (opcodeOf w).toNat = w.toNat / 4096 % 16 := field_toNat w 15 4
  rw [decode_eq_error_iff, ← BitVec.toNat_inj, hop, show (0b1101#4).toNat = 13 from rfl]
  have hw := w.isLt
  omega

/-- Words that agree on the bits of a mask agree on a field inside it. -/
theorem field_congr {w w' m : Word} (h : w &&& m = w' &&& m) {p s : Nat} (hp : p < 16) (hs : s ≤ p + 1)
    (hm : m &&& fieldMask p s = fieldMask p s) : field w p s = field w' p s := by
  rw [field_eq_iff_and_fieldMask hp hs, ← (field_eq_iff_and_fieldMask hp hs w' _).1 rfl, ← hm, ← BitVec.and_assoc, h,
    BitVec.and_assoc]

/-- Words that agree on the bits of a mask agree on a bit inside it. -/
theorem getLsbD_congr {w w' m : Word} (h : w &&& m = w' &&& m) {i : Nat} (hm : m.getLsbD i = true) :
    w.getLsbD i = w'.getLsbD i := by
  have hbit := congrArg (·.getLsbD i) h
  simpa [hm] using hbit

/-- The opcode is never ignored (R79). -/
theorem ignoredBits_opcode (w : Word) : ~~~ignoredBits w &&& fieldMask 15 4 = fieldMask 15 4 := by
  unfold ignoredBits
  repeat' split
  all_goals decide

/-- Settles O4: the fields the decoder reads for an opcode lie outside the bits it ignores for it; where it ignores none,
the two words are the same. -/
theorem decodeIgnoresUnusedBits : Obligations.DecodeIgnoresUnusedBits := by
  intro w w' h
  have hw : opcodeOf w = opcodeOf w' := field_congr h (by decide) (by decide) (ignoredBits_opcode w)
  have hall : w &&& ~~~0#16 = w' &&& ~~~0#16 → decode w = decode w' := by
    rw [BitVec.not_zero, BitVec.and_allOnes, BitVec.and_allOnes]
    exact congrArg decode
  unfold ignoredBits at h
  split at h
  -- ADD and AND ignore bits [4:3] in register mode, none in immediate mode.
  case h_1 hop | h_2 hop =>
    split at h
    case isTrue => exact hall h
    case isFalse hm =>
      have hm' : w.getLsbD 5 = w'.getLsbD 5 := getLsbD_congr h (by decide)
      have h11 : field w 11 3 = field w' 11 3 := field_congr h (by decide) (by decide) (by decide)
      have h8 : field w 8 3 = field w' 8 3 := field_congr h (by decide) (by decide) (by decide)
      have h2 : field w 2 3 = field w' 2 3 := field_congr h (by decide) (by decide) (by decide)
      rw [decode, decode, ← hw, hop, ← hm']
      simp only [if_neg hm, regField, h11, h8, h2]
  -- JSRR ignores bits [10:9] and [5:0], JSR none.
  case h_3 hop =>
    split at h
    case isTrue => exact hall h
    case isFalse hm =>
      have hm' : w.getLsbD 11 = w'.getLsbD 11 := getLsbD_congr h (by decide)
      have h8 : field w 8 3 = field w' 8 3 := field_congr h (by decide) (by decide) (by decide)
      rw [decode, decode, ← hw, hop, ← hm']
      simp only [if_neg hm, regField, h8]
  -- RTI and the reserved opcode: nothing below the opcode is read.
  case h_4 hop | h_5 hop =>
    rw [decode, decode, ← hw, hop]
    rfl
  -- NOT ignores bits [5:0].
  case h_6 hop =>
    have h11 : field w 11 3 = field w' 11 3 := field_congr h (by decide) (by decide) (by decide)
    have h8 : field w 8 3 = field w' 8 3 := field_congr h (by decide) (by decide) (by decide)
    rw [decode, decode, ← hw, hop]
    simp only [regField, h11, h8]
  -- JMP ignores bits [11:9] and [5:0].
  case h_7 hop =>
    have h8 : field w 8 3 = field w' 8 3 := field_congr h (by decide) (by decide) (by decide)
    rw [decode, decode, ← hw, hop]
    simp only [regField, h8]
  -- TRAP ignores bits [11:8].
  case h_8 hop =>
    have h7 : field w 7 8 = field w' 7 8 := field_congr h (by decide) (by decide) (by decide)
    rw [decode_of_trap hop, decode_of_trap (hw ▸ hop), h7]
  -- The other opcodes ignore no bit.
  case h_9 => exact hall h

/-- What the decoder gives is one of the 18 variants (R78). -/
theorem isVariant_of_decode {w : Word} {i : Instr} (h : decode w = .ok i) : i.isVariant = true := by
  unfold decode at h
  repeat' split at h
  all_goals cases h
  all_goals rfl

/-- A value outside the range of a signed field does not fit it (R76). -/
theorem fitsSigned_eq_false {k : Nat} {v : Word} (h : v.toInt < -2 ^ (k - 1) ∨ 2 ^ (k - 1) - 1 < v.toInt) :
    fitsSigned k v = false := by
  rw [fitsSigned, Bool.and_eq_false_iff, decide_eq_false_iff_not, decide_eq_false_iff_not]
  omega

/-- An instruction with an operand outside its field's range is refused, not truncated (R93). -/
theorem encode_of_not_inRange {i : Instr} (h : i.operandsInRange = false) : encode i = .error .invalidOperand :=
  if_pos h

/-- Settles O5: decoded operands are sign extensions of their fields, and the encoder's first test refuses an operand whose
signed reading its field cannot hold. -/
theorem decodedInstructionsAreWellFormedVariants : Obligations.DecodedInstructionsAreWellFormedVariants := by
  refine ⟨fun w i h => ⟨wellFormed_of_decode h, isVariant_of_decode h⟩, fun r b v => ⟨fun h => ?imm5, fun h => ?off6,
    fun h => ?off9, fun h => ?off11⟩⟩
  case imm5 =>
    have hno : fitsSigned 5 v = false := fitsSigned_eq_false h
    exact ⟨encode_of_not_inRange hno, encode_of_not_inRange hno⟩
  case off6 =>
    have hno : fitsSigned 6 v = false := fitsSigned_eq_false h
    exact ⟨encode_of_not_inRange hno, encode_of_not_inRange hno⟩
  case off9 =>
    have hno : fitsSigned 9 v = false := fitsSigned_eq_false h
    exact ⟨fun _ _ _ => encode_of_not_inRange hno, encode_of_not_inRange hno, encode_of_not_inRange hno,
      encode_of_not_inRange hno, encode_of_not_inRange hno, encode_of_not_inRange hno⟩
  case off11 =>
    have hno : fitsSigned 11 v = false := fitsSigned_eq_false h
    exact encode_of_not_inRange hno

/-- Settles O2: seven fixed words, packed and decoded by evaluation. -/
theorem refiningRowsDecodeToTheirParent : Obligations.RefiningRowsDecodeToTheirParent := by
  unfold Obligations.RefiningRowsDecodeToTheirParent
  decide

/-- Settles O6: nineteen fixed words, decoded by evaluation. -/
theorem decodeReadsSampleWords : Obligations.DecodeReadsSampleWords := by
  unfold Obligations.DecodeReadsSampleWords
  decide

/-- The offset the assembler computes for a label is its distance from the incremented PC (R104). -/
theorem labelOffset_eq_ok {k a t : Nat} {off : Word} (h : labelOffset k a t = .ok off) :
    off = BitVec.ofInt 16 (t - (a + 1)) := by
  simp only [labelOffset, signedOperand] at h
  split at h <;> cases h
  rfl

/-- Settles O8: the distance added to the incremented PC is the label's address, in integers and so modulo 65536. -/
theorem labelOffsetReachesTheLabel : Obligations.LabelOffsetReachesTheLabel := by
  intro k a t origin off _ _ hoff
  rw [labelOffset_eq_ok hoff, aluAdd, BitVec.add_assoc, ← BitVec.ofInt_natCast, ← BitVec.ofInt_natCast, ← BitVec.ofInt_add]
  push_cast
  rw [add_sub_cancel]

end Sys2Proof.Machine
end

section
/-! SUPPORT. The ALU in both readings (R147). -/

namespace Sys2Proof.Machine

/-- `a XOR 0xFFFF` is the bitwise complement (R140). -/
theorem aluNot_eq (a : Word) : aluNot a = ~~~a := BitVec.xor_allOnes

/-- The signed sum is brought into the range of a Word by 65536, if it needs to be (R147). -/
theorem aluAdd_toInt (a b : Word) :
    (aluAdd a b).toInt = a.toInt + b.toInt ∨ (aluAdd a b).toInt = a.toInt + b.toInt + 65536 ∨
      (aluAdd a b).toInt = a.toInt + b.toInt - 65536 := by
  have ha := BitVec.toInt_lt (x := a)
  have ha' := BitVec.le_toInt (x := a)
  have hb := BitVec.toInt_lt (x := b)
  have hb' := BitVec.le_toInt (x := b)
  rw [aluAdd, BitVec.toInt_add, Int.bmod_def]
  omega

/-- NOT and ADD 1 negate, so that adding them subtracts (R147). -/
theorem aluAdd_aluNot (a b : Word) : aluAdd a (aluAdd (aluNot b) 1#16) = a - b := by
  rw [aluNot_eq, aluAdd, aluAdd, ← BitVec.neg_eq_not_add, BitVec.sub_eq_add_neg]

/-- Settles O12: the unsigned sum is the adder's own, the signed one `aluAdd_toInt`, the difference `aluAdd_aluNot`. -/
theorem additionWrapsInBothReadings : Obligations.AdditionWrapsInBothReadings := by
  intro a b
  refine ⟨BitVec.toNat_add a b, aluAdd_toInt a b, ?_⟩
  rw [aluAdd_aluNot, BitVec.toNat_sub]
  have hb := b.isLt
  omega

end Sys2Proof.Machine
end

section
/-! SUPPORT. The canonical form of memory as a representation (log 7). -/

namespace Sys2Proof.Machine

/-- Settles O14: an address of the machine is a Word, so memories that read alike at every Word are the same list. -/
theorem canonicalMemoriesThatReadAlikeAreEqual : Obligations.CanonicalMemoriesThatReadAlikeAreEqual := by
  intro m m' hm hm' hread
  refine Memory.wfFrom_ext hm hm' fun a ha => ?_
  have h := hread (BitVec.ofNat 16 a)
  rwa [BitVec.toNat_ofNat, Nat.mod_eq_of_lt ha] at h

end Sys2Proof.Machine
end

section
/-! SUPPORT. How the step of a ready core ends, read off the word it fetches (R122, R237). -/

namespace Sys2Proof.Machine

/-- Only a word with TRAP's opcode decodes to a TRAP. -/
theorem opcode_of_decode_trap {w : Word} {v : Byte} (h : decode w = .ok (.trap v)) : opcodeOf w = 0b1111#4 := by
  unfold decode at h
  split at h
  case h_15 hop => exact hop
  case h_2 | h_5 | h_6 => split at h <;> cases h
  all_goals cases h

/-- A variant other than TRAP leaves STATUS alone. -/
theorem exec_status {i : Instr} (hv : i.isVariant = true) (hno : ∀ v, i ≠ .trap v) {s t : State}
    (h : exec i s = .next t) : t.status = s.status := by
  cases i with
  | br n z p off =>
    simp only [exec, execBr] at h
    split at h <;> cases h <;> rfl
  | trap v => exact absurd rfl (hno v)
  | reserved | ret | trapGetc | trapOut | trapPuts | trapIn | trapPutsp | trapHalt => cases hv
  | _ => cases h; rfl

/-- A string service leaves STATUS alone. -/
theorem serviceString_status (chars : Word → List Byte) (h : Word → Hold) (s : State) :
    (serviceString chars h s).status = s.status := by
  cases hn : stringLength s with
  | none => rw [serviceString_of_none hn]; rfl
  | some n => rw [serviceString_of_some hn]; rfl

/-- Every service but HALT leaves STATUS alone. -/
theorem dispatchTrap_status {v : Byte} (hv : v ∈ serviceVectors) (hne : v ≠ 0x25#8) (s : State) :
    (dispatchTrap v s).status = s.status := by
  simp only [serviceVectors, List.mem_cons, List.not_mem_nil, or_false] at hv
  obtain rfl | rfl | rfl | rfl | rfl | rfl := hv
  · exact continueHold_status .getc s
  · rfl
  · exact serviceString_status _ _ s
  · exact continueHold_status .inEcho s
  · exact serviceString_status _ _ s
  · exact absurd rfl hne

/-- How a step that fetched `w` ends: with an error, halted, or Running. -/
inductive StepEnd (w : Word) (s t : State) : Prop
  | illegal (hop : opcodeOf w = 0b1101#4) (ht : t = s.raiseError .illegalInstruction)
  | unsupported (hop : opcodeOf w = 0b1111#4) (hv : field w 7 8 ∉ serviceVectors) (ht : t = s.raiseError .unsupportedTrap)
  | halted (hop : opcodeOf w = 0b1111#4) (hv : field w 7 8 = 0x25#8) (ht : t = s.halt)
  | running (hop : opcodeOf w ≠ 0b1101#4)
      (hv : opcodeOf w = 0b1111#4 → field w 7 8 ∈ serviceVectors ∧ field w 7 8 ≠ 0x25#8) (ht : t.status = s.status)

/-- A TRAP ends as its vector says (R200, R212, R232). -/
theorem dispatchTrap_stepEnd {w : Word} (hop : opcodeOf w = 0b1111#4) (s : State) :
    StepEnd w s (dispatchTrap (field w 7 8) s) := by
  by_cases hv : field w 7 8 ∈ serviceVectors
  · by_cases hhalt : field w 7 8 = 0x25#8
    · exact .halted hop hhalt (by rw [hhalt]; rfl)
    · exact .running (by rw [hop]; decide) (fun _ => ⟨hv, hhalt⟩) (dispatchTrap_status hv hhalt s)
  · exact .unsupported hop hv (dispatchTrap_unsupported s hv)

/-- A ready core's step ends as its fetched word says. -/
theorem step_stepEnd {s t : State} (hs : Ready s) (h : step s = .next t) :
    StepEnd (s.memRead s.pc) (fetch s) t := by
  cases hd : decode (s.memRead s.pc) with
  | error e =>
    cases e
    rw [step_of_decode_error hs hd] at h
    cases h
    exact .illegal ((decode_eq_error_iff _).1 hd) rfl
  | ok i =>
    rw [step_of_decode_ok hs hd] at h
    by_cases hop : opcodeOf (s.memRead s.pc) = 0b1111#4
    · rw [decode_of_trap hop] at hd
      cases hd
      cases h
      exact dispatchTrap_stepEnd hop (fetch s)
    · have hno : ∀ v, i ≠ .trap v := by
        rintro v rfl
        exact hop (opcode_of_decode_trap hd)
      have hlegal : opcodeOf (s.memRead s.pc) ≠ 0b1101#4 := fun he => by
        rw [(decode_eq_error_iff _).2 he] at hd
        cases hd
      exact .running hlegal (fun he => absurd he hop) (exec_status (isVariant_of_decode hd) hno h)

/-- Settles O22, by the four ends of a step. -/
theorem fetchedWordDecidesTheOutcome : Obligations.FetchedWordDecidesTheOutcome := by
  intro s t hs hstep
  cases step_stepEnd hs hstep with
  | illegal hop ht =>
    subst ht
    simp [hop, aluAdd]
  | unsupported hop hv ht =>
    subst ht
    have hne : field (s.memRead s.pc) 7 8 ≠ 0x25#8 := fun he => hv (he ▸ by decide)
    simp [hop, hv, hne, aluAdd]
  | halted hop hv ht =>
    subst ht
    simp [hop, hv, aluAdd, serviceVectors]
  | running hop hv ht =>
    rw [ht.trans hs.running]
    have hhalt : ¬(opcodeOf (s.memRead s.pc) = 0b1111#4 ∧ field (s.memRead s.pc) 7 8 = 0x25#8) :=
      fun ⟨hop, he⟩ => (hv hop).2 he
    have hbad : ¬(opcodeOf (s.memRead s.pc) = 0b1111#4 ∧ field (s.memRead s.pc) 7 8 ∉ serviceVectors) :=
      fun ⟨hop, he⟩ => he (hv hop).1
    simp [hop, hhalt, hbad]

end Sys2Proof.Machine
end

section
/-! SUPPORT. The effect of each instruction in the claims' terms: the operation it is written with, at the operands it
reads. -/

namespace Sys2Proof.Machine

/-- Settles O28: ADD is `State.writeResult` at the sum of two registers. -/
theorem addRegisterWritesTheSum : Obligations.AddRegisterWritesTheSum :=
  fun _ _ _ s => ⟨_, rfl, s.writeResult_resultIn _ _⟩

/-- Settles O29: ADD is `State.writeResult` at the sum with the immediate. -/
theorem addImmediateWritesTheSum : Obligations.AddImmediateWritesTheSum :=
  fun _ _ _ s => ⟨_, rfl, s.writeResult_resultIn _ _⟩

/-- Settles O30: AND is `State.writeResult` at the conjunction of two registers. -/
theorem andRegisterWritesTheConjunction : Obligations.AndRegisterWritesTheConjunction :=
  fun _ _ _ s => ⟨_, rfl, s.writeResult_resultIn _ _⟩

/-- Settles O31: AND is `State.writeResult` at the conjunction with the immediate. -/
theorem andImmediateWritesTheConjunction : Obligations.AndImmediateWritesTheConjunction :=
  fun _ _ _ s => ⟨_, rfl, s.writeResult_resultIn _ _⟩

/-- Settles O32: NOT is `State.writeResult` at `aluNot`, the complement. -/
theorem notWritesTheComplement : Obligations.NotWritesTheComplement :=
  fun _ sr s => ⟨_, rfl, aluNot_eq (s.reg sr) ▸ s.writeResult_resultIn _ _⟩

/-- Settles O37: each load is `State.writeResult` at the word of its effective address. -/
theorem loadsPutTheAddressedWordInTheRegister : Obligations.LoadsPutTheAddressedWordInTheRegister :=
  ⟨fun _ _ s => ⟨_, rfl, s.writeResult_resultIn _ _⟩, fun _ _ _ s => ⟨_, rfl, s.writeResult_resultIn _ _⟩,
    fun _ _ s => ⟨_, rfl, s.writeResult_resultIn _ _⟩⟩

/-- Settles O38: LEA is `State.writeResult` at the effective address itself. -/
theorem leaPutsTheAddressInTheRegister : Obligations.LeaPutsTheAddressInTheRegister :=
  fun _ _ s => ⟨_, rfl, s.writeResult_resultIn _ _⟩

/-- Settles O39: each store is `State.memWrite` at its effective address. -/
theorem storesReplaceTheAddressedWord : Obligations.StoresReplaceTheAddressedWord := fun _ hwf =>
  ⟨fun _ _ => ⟨_, rfl, State.memWrite_storesAt hwf _ _⟩, fun _ _ _ => ⟨_, rfl, State.memWrite_storesAt hwf _ _⟩,
    fun _ _ => ⟨_, rfl, State.memWrite_storesAt hwf _ _⟩⟩

/-- BR's test in words: no request bit, or a requested flag that is true (R161). -/
theorem branchTaken_iff (n z p : Bool) (c : Flags) :
    branchTaken n z p c = true ↔ (n = false ∧ z = false ∧ p = false) ∨ (n = true ∧ c.n = true) ∨
      (z = true ∧ c.z = true) ∨ (p = true ∧ c.p = true) := by
  simp only [branchTaken, Bool.or_eq_true, Bool.and_eq_true, Bool.not_eq_true', and_assoc, or_assoc]

/-- Settles O33: the two branches of `execBr`, under the test of `branchTaken_iff`. -/
theorem branchIsTakenOnARequestedFlag : Obligations.BranchIsTakenOnARequestedFlag := by
  intro n z p off s
  simp only [← branchTaken_iff, exec, execBr]
  split
  case isTrue ht => exact ⟨_, rfl, fun _ => s.setPc_jumpsTo _ _, fun hno => absurd ht hno⟩
  case isFalse hno => exact ⟨_, rfl, fun ht => absurd ht hno, fun _ => rfl⟩

/-- Settles O34: JMP and RET are `State.setPc` at the base register. -/
theorem jmpAndRetGoToTheBaseRegister : Obligations.JmpAndRetGoToTheBaseRegister :=
  ⟨fun _ s => ⟨_, rfl, s.setPc_jumpsTo _ _⟩, fun s => ⟨_, rfl, s.setPc_jumpsTo _ _⟩⟩

/-- The link is the PC, in R7 (R21). -/
theorem saveLink_reg_link (s : State) : (saveLink s).reg 7 = s.pc := s.reg_setReg_same 7 s.pc

/-- The link touches no other register. -/
theorem saveLink_reg_other (s : State) {r : RegNum} (hr : r ≠ 7) : (saveLink s).reg r = s.reg r :=
  s.reg_setReg_other s.pc hr

/-- A jump after the link changes the PC and R7 and nothing else (R164 to R166). -/
theorem saveLink_setPc_jumpsTo (s : State) (v : Word) : JumpsTo v [7] s ((saveLink s).setPc v) where
  pc := rfl
  regs _ hr := saveLink_reg_other s fun h7 => hr (h7 ▸ List.mem_singleton_self _)
  flags := rfl
  mem _ := rfl
  streams := ⟨rfl, rfl⟩
  control := ⟨rfl, rfl, rfl, rfl, rfl, rfl, rfl⟩

/-- Settles O35: JSR is the link, then `State.setPc`; the link leaves the PC the offset is added to. -/
theorem jsrLinksThenJumpsRelative : Obligations.JsrLinksThenJumpsRelative :=
  fun _ s => ⟨_, rfl, saveLink_reg_link s, saveLink_setPc_jumpsTo s _⟩

/-- Settles O36: the base is read after the link is written, so base R7 reads the link. -/
theorem jsrrLinksThenJumpsToTheBase : Obligations.JsrrLinksThenJumpsToTheBase := by
  intro base s
  have hbase : (saveLink s).reg base = if base = 7 then s.pc else s.reg base := by
    split
    case isTrue h => rw [h, saveLink_reg_link]
    case isFalse h => exact saveLink_reg_other s h
  exact ⟨_, rfl, saveLink_reg_link s, hbase ▸ saveLink_setPc_jumpsTo s _⟩

/-- Settles O51: HALT is `State.halt`, after which the core is not Running. -/
theorem haltChangesStatusAlone : Obligations.HaltChangesStatusAlone :=
  fun _ => ⟨_, rfl, rfl, step_of_not_running nofun⟩

/-- Settles O52: RTI answers the state it is given. -/
theorem rtiChangesNothing : Obligations.RtiChangesNothing := fun s => ⟨s, rfl, rfl⟩

/-- Settles O53: the reserved row is `State.raiseError`. -/
theorem reservedRowRaisesIllegalInstruction : Obligations.ReservedRowRaisesIllegalInstruction :=
  fun s => ⟨s.raiseError .illegalInstruction, rfl, rfl⟩

end Sys2Proof.Machine
end

section
/-! SUPPORT. The trap dispatcher and the character services (R200 to R206): what each answers, on a waiting character and
on an empty input stream, and how a supplied character ends a hold (R124). -/

namespace Sys2Proof.Machine

/-- Settles O40: one arm of the dispatcher per service, and its last arm for every other vector. -/
theorem trapRunsTheServiceOfItsVector : Obligations.TrapRunsTheServiceOfItsVector := fun s =>
  ⟨rfl, rfl, rfl, rfl, rfl, rfl, fun _ hv => congrArg Host.Outcome.next (dispatchTrap_unsupported s hv)⟩

/-- OUT appends the low byte of its cell (R204). -/
theorem serviceOut_eq (s : State) : serviceOut s = s.emit [(s.memRead Config.outCell).setWidth 8] :=
  congrArg (fun c => s.emit [c]) (lowByte_eq _)

/-- Settles O45: OUT is one `State.emit`. -/
theorem outWritesTheFixedCell : Obligations.OutWritesTheFixedCell := fun s =>
  ⟨_, congrArg Host.Outcome.next (serviceOut_eq s), rfl, rfl, fun _ _ => rfl, rfl, rfl, fun _ => rfl,
    rfl, rfl, rfl, rfl, rfl, rfl, rfl⟩

/-- From `s` to `t` only this happened: the character `c` left the input stream for R0, the flags follow it, `out` was
written and the step no longer holds (R203, R206). -/
structure TakesChar (c : Byte) (out : List Byte) (s t : State) : Prop where
  result : t.reg 0 = zext c
  flags : t.cc.Reflect (zext c)
  notNegative : t.cc.n = false
  regs : SameRegsBut [0] s t
  pc : t.pc = s.pc
  mem : SameMem s t
  input : t.input = s.input.tail
  output : t.output = s.output ++ out
  control : SameControl (s.setHold none) t

/-- A character zero-extended is never negative: its bit 15 is 0. -/
theorem flagsOf_zext_n (c : Byte) : (flagsOf (zext c)).n = false := by
  simp [flagsOf, zext]

/-- Taking a character and writing `out` does what `TakesChar` says, and nothing else. -/
theorem acceptChar_emit_takesChar (c : Byte) (out : List Byte) (s : State) :
    TakesChar c out s ((acceptChar c s).emit out) where
  result := s.dropInput.reg_setReg_same 0 (zext c)
  flags := flagsOf_reflect (zext c)
  notNegative := flagsOf_zext_n c
  regs _ hr := s.dropInput.reg_setReg_other (zext c) fun h0 => hr (h0 ▸ List.mem_singleton_self _)
  pc := rfl
  mem _ := rfl
  input := rfl
  output := rfl
  control := ⟨rfl, rfl, rfl, rfl, rfl, rfl, rfl⟩

/-- GETC with a character waiting takes it (R203). -/
theorem serviceGetc_takesChar {s : State} {c : Byte} {rest : List Byte} (h : s.input = c :: rest) :
    TakesChar c [] s (serviceGetc s) := by
  have heq : serviceGetc s = (acceptChar c s).emit [] := by
    rw [serviceGetc_of_cons h, State.emit, List.append_nil]
  rw [heq]
  exact acceptChar_emit_takesChar c [] s

/-- IN with a character waiting takes and echoes it (R206). -/
theorem serviceIn_takesChar {s : State} {c : Byte} {rest : List Byte} (h : s.input = c :: rest) :
    TakesChar c [c] s (serviceIn s) := by
  rw [serviceIn_of_cons h]
  exact acceptChar_emit_takesChar c [c] s

/-- Settles O42: the two services with a character waiting, each a `TakesChar`. -/
theorem inputServicesTakeTheFrontCharacter : Obligations.InputServicesTakeTheFrontCharacter := by
  intro s c rest hin
  have hrest : s.input.tail = rest := by rw [hin, List.tail_cons]
  have hg := serviceGetc_takesChar hin
  have hi := serviceIn_takesChar hin
  exact ⟨⟨_, rfl, hg.result, hg.flags, hg.notNegative, hg.regs, hg.pc, hg.mem, hg.input.trans hrest,
      hg.output.trans (List.append_nil _), hg.control⟩,
    ⟨_, rfl, hi.result, hi.flags, hi.notNegative, hi.regs, hi.pc, hi.mem, hi.input.trans hrest, hi.output, hi.control⟩⟩

/-- Setting the hold that stands changes nothing. -/
theorem State.setHold_self {s : State} {h : Option Hold} (hh : s.hold = h) : s.setHold h = s := by
  subst hh
  rfl

/-- Settles O43: on an empty stream the services set the hold; where it stands already that is no change, so the core
steps to itself. -/
theorem inputServicesHoldOnAnEmptyStream : Obligations.InputServicesHoldOnAnEmptyStream := by
  intro s hin
  refine ⟨congrArg Host.Outcome.next (serviceGetc_of_empty hin), congrArg Host.Outcome.next (serviceIn_of_empty hin),
    fun hr hhold => run_of_fixed ?_⟩
  obtain hh | hh := hhold
  · rw [step_of_hold hr hh, continueHold, serviceGetc_of_empty hin, State.setHold_self hh]
  · rw [step_of_hold hr hh, continueHold, serviceIn_of_empty hin, State.setHold_self hh]

/-- Settles O44: the supplied character is the whole input stream, and the step that holds runs its service on it. -/
theorem suppliedCharacterCompletesTheHold : Obligations.SuppliedCharacterCompletesTheHold := by
  intro s u c hr hin
  have hsupply : hostAct (.supply c) s = .next u →
      u.status = .running ∧ u.hold = s.hold ∧ u.input = [c] ∧ u.output = s.output := by
    rintro ⟨⟩
    exact ⟨hr, rfl, congrArg (· ++ [c]) hin, rfl⟩
  constructor
  · intro hh hact
    obtain ⟨hru, hhu, hone, -⟩ := hsupply hact
    have hstep : step u = .next (serviceGetc u) := step_of_hold hru (hhu.trans hh)
    have ht := serviceGetc_takesChar hone
    exact ⟨hstep, _, hstep, ht.control.hold, ht.result, ht.input.trans (congrArg List.tail hone)⟩
  · intro hh hact
    obtain ⟨hru, hhu, hone, hout⟩ := hsupply hact
    have hstep : step u = .next (serviceIn u) := step_of_hold hru (hhu.trans hh)
    have ht := serviceIn_takesChar hone
    exact ⟨hstep, _, hstep, ht.control.hold, ht.result, ht.input.trans (congrArg List.tail hone), hout ▸ ht.output⟩

end Sys2Proof.Machine
end

section
/-! SUPPORT. The string services (R208, R210): what one that completes writes and leaves unchanged, when it completes, and
its loop where no word of memory is zero (R125). -/

namespace Sys2Proof.Machine

/-- From `s` to `t` only this happened: `out` was written, the PC advanced by `n` and the step no longer holds. -/
structure WritesString (out : List Byte) (n : Nat) (s t : State) : Prop where
  output : t.output = s.output ++ out
  pc : t.pc = s.pc + BitVec.ofNat 16 n
  input : t.input = s.input
  regs : SameRegsBut [] s t
  flags : t.cc = s.cc
  mem : SameMem s t
  control : SameControl (s.setHold none) t

/-- A string service on a string of `n` words writes their characters and advances the PC by `n`. -/
theorem serviceString_writesString {s : State} {n : Nat} (hn : stringLength s = some n) (chars : Word → List Byte)
    (h : Word → Hold) : WritesString (stringChars chars s n) n s (serviceString chars h s) := by
  rw [serviceString_of_some hn]
  exact ⟨rfl, rfl, rfl, fun _ _ => rfl, rfl, fun _ => rfl, rfl, rfl, rfl, rfl, rfl, rfl, rfl⟩

/-- The characters of a PUTS string: the low byte of each word (R208). -/
theorem stringChars_puts (s : State) (n : Nat) : stringChars putsChars s n =
    (List.range n).map fun i => (s.memRead (s.reg 0 + BitVec.ofNat 16 i)).setWidth 8 := by
  simp only [List.map_eq_flatMap, stringChars, putsChars, lowByte_eq, stringAddress, aluAdd]

/-- The characters of a PUTSP string: of each word the low byte, and the high byte unless it is zero (R210). -/
theorem stringChars_putsp (s : State) (n : Nat) : stringChars putspChars s n =
    (List.range n).flatMap fun i =>
      (s.memRead (s.reg 0 + BitVec.ofNat 16 i)).setWidth 8 ::
        (if (s.memRead (s.reg 0 + BitVec.ofNat 16 i)).toNat / 256 = 0 then []
          else [BitVec.ofNat 8 ((s.memRead (s.reg 0 + BitVec.ofNat 16 i)).toNat / 256)]) := by
  simp only [stringChars, putspChars_eq, stringAddress, aluAdd]

/-- Settles O46: the scan finds the first zero word, and the service is `serviceString_writesString`. -/
theorem putsWritesTheStringAndAdvancesThePC : Obligations.PutsWritesTheStringAndAdvancesThePC := by
  intro s n hne hz
  have ht := serviceString_writesString (stringLength_eq_some hne hz) putsChars .puts
  exact ⟨_, rfl, stringChars_puts s n ▸ ht.output, ht.pc, ht.input, ht.regs, ht.flags, ht.mem, ht.control⟩

/-- Settles O47, as O46 with the characters of a packed word. -/
theorem putspWritesTwoCharactersPerWord : Obligations.PutspWritesTwoCharactersPerWord := by
  intro s n hne hz
  have ht := serviceString_writesString (stringLength_eq_some hne hz) putspChars .putsp
  exact ⟨_, rfl, stringChars_putsp s n ▸ ht.output, ht.pc, ht.input, ht.regs, ht.flags, ht.mem, ht.control⟩

/-- Settles O48: the scan comes round to every address, so it finds a zero word if there is one. -/
theorem stringServicesEndIffSomeWordIsZero : Obligations.StringServicesEndIffSomeWordIsZero := by
  intro s
  constructor
  · rintro ⟨b, hb⟩
    have hsome : stringLength s ≠ none := fun hn => stringLength_eq_none.1 hn b hb
    obtain ⟨n, hn⟩ := Option.ne_none_iff_exists'.1 hsome
    exact ⟨⟨_, rfl, (serviceString_writesString hn putsChars .puts).control.hold⟩,
      ⟨_, rfl, (serviceString_writesString hn putspChars .putsp).control.hold⟩⟩
  · intro hne
    have hn := stringLength_eq_none.2 hne
    exact ⟨congrArg Host.Outcome.next (serviceString_of_none hn), congrArg Host.Outcome.next (serviceString_of_none hn)⟩

/-- The state of a string service that has held for `k` turns since `s`. -/
def stringTurn (chars : Word → List Byte) (h : Word → Hold) (s : State) (k : Nat) : State :=
  (s.emit (stringChars chars s k)).setHold (some (h (BitVec.ofNat 16 k)))

/-- One word more of a string. -/
theorem stringChars_succ (chars : Word → List Byte) (s : State) (k : Nat) : stringChars chars s (k + 1) =
    stringChars chars s k ++ chars (s.memRead (stringAddress s (BitVec.ofNat 16 k))) := by
  simp only [stringChars, List.range_succ, List.flatMap_append, List.flatMap_singleton]

/-- Counting one word on. -/
theorem aluAdd_ofNat_one (k : Nat) : aluAdd (BitVec.ofNat 16 k) 1#16 = BitVec.ofNat 16 (k + 1) :=
  (BitVec.ofNat_add k 1).symm

/-- A turn of the loop at a word that is not zero writes its characters and counts on (R208, R210). -/
theorem continueString_stringTurn {chars : Word → List Byte} {h : Word → Hold} {s : State}
    (hne : ∀ b, s.memRead b ≠ 0#16) (k : Nat) :
    continueString chars h (BitVec.ofNat 16 k) (stringTurn chars h s k) = stringTurn chars h s (k + 1) := by
  have hword : (stringTurn chars h s k).memRead (stringAddress (stringTurn chars h s k) (BitVec.ofNat 16 k)) =
      s.memRead (stringAddress s (BitVec.ofNat 16 k)) := rfl
  rw [continueString, hword, if_neg (hne _), aluAdd_ofNat_one, stringTurn, stringTurn, stringChars_succ]
  simp only [State.setHold, State.emit, List.append_assoc]

/-- With no zero word in memory a string service holds for ever, one word of its string written per turn (R125). -/
theorem run_stringTurn {chars : Word → List Byte} {h : Word → Hold} {s : State}
    (hcont : ∀ n t, continueHold (h n) t = continueString chars h n t) (hr : s.status = .running)
    (hh : s.hold = some (h 0#16)) (hne : ∀ b, s.memRead b ≠ 0#16) (k : Nat) :
    core.run k s = .next (stringTurn chars h s k) := by
  induction k with
  | zero =>
    have hstart : stringTurn chars h s 0 = s := by
      rw [stringTurn, State.emit, stringChars, List.range_zero, List.flatMap_nil, List.append_nil]
      exact State.setHold_self hh
    rw [hstart]
    rfl
  | succ k ih =>
    have hstep : step (stringTurn chars h s k) = .next (continueHold (h (BitVec.ofNat 16 k)) (stringTurn chars h s k)) :=
      step_of_hold hr rfl
    rw [hcont, continueString_stringTurn hne] at hstep
    rw [run_succ_last ih]
    exact hstep

/-- Settles O49: PUTS, turn by turn. -/
theorem unterminatedPutsNeverCompletes : Obligations.UnterminatedPutsNeverCompletes := by
  intro s hr hh hne k
  rw [run_stringTurn (chars := putsChars) (fun _ _ => rfl) hr hh hne, stringTurn, stringChars_puts]
  rfl

/-- Settles O50: PUTSP, turn by turn. -/
theorem unterminatedPutspNeverCompletes : Obligations.UnterminatedPutspNeverCompletes := by
  intro s hr hh hne k
  rw [run_stringTurn (chars := putspChars) (fun _ _ => rfl) hr hh hne, stringTurn, stringChars_putsp]
  rfl

end Sys2Proof.Machine
end

section
/-! SUPPORT. TRAP on the vectors of the six services (R200 to R212): it completes where its service does. -/

namespace Sys2Proof.Machine

/-- A string that begins with a zero word is empty (R208, R210). -/
theorem serviceString_of_empty {s : State} (hz : s.memRead (s.reg 0) = 0#16) (chars : Word → List Byte)
    (h : Word → Hold) : (serviceString chars h s).pc = s.pc ∧ (serviceString chars h s).output = s.output := by
  have hlen : stringLength s = some 0 := stringLength_eq_some nofun (by rwa [BitVec.add_zero])
  have ht := serviceString_writesString hlen chars h
  exact ⟨ht.pc.trans (BitVec.add_zero _), ht.output.trans (List.append_nil _)⟩

/-- Settles O41: each vector is its service, which completes by the lemma on that service. -/
theorem trapCompletesItsService : Obligations.TrapCompletesItsService := by
  refine ⟨fun s => ⟨_, rfl, rfl⟩, fun s => ⟨_, rfl, serviceOut_eq s⟩, fun s c rest hin => ?input, fun s hz => ?string⟩
  case input =>
    have hrest : s.input.tail = rest := by rw [hin, List.tail_cons]
    have hg := serviceGetc_takesChar hin
    have hi := serviceIn_takesChar hin
    exact ⟨⟨_, rfl, hg.input.trans hrest, hg.result⟩, ⟨_, rfl, hi.input.trans hrest, hi.result, hi.output⟩⟩
  case string =>
    exact ⟨⟨_, rfl, serviceString_of_empty hz putsChars .puts⟩, ⟨_, rfl, serviceString_of_empty hz putspChars .putsp⟩⟩

end Sys2Proof.Machine
end

section
/-! SUPPORT. The image load, of words and of a file's bytes (R262 to R264), and a `.STRINGZ` block in memory (R108). -/

namespace Sys2Proof.Machine

/-- Settles O55: the addresses of the image and those outside it read as the memory lemmas on `Memory.load` say. -/
theorem loadPlacesTheImageAtItsOrigin : Obligations.LoadPlacesTheImageAtItsOrigin := by
  intro s origin ws hwf hst hl
  exact ⟨_, hostAct_load_of_allowed hst hl origin ws, fun _ hk hlast => Memory.read_load_inside hwf origin ws hk hlast,
    fun a ha => loadImage_memRead_outside s origin ws fun k hk => (ha k hk).symm, rfl⟩

/-- A file load that is allowed fails where the file has no image (R264). -/
theorem hostAct_loadFile_of_none {s : State} (hst : s.status = .stopped) (hl : s.loaded = false) (order : ByteOrder)
    {file : Option (List Byte)} (hf : file.bind (parseImage order) = none) :
    hostAct (.loadFile order file) s = .fault .imageLoadError := by
  simp [hostAct, (loadAllowed_iff s).2 ⟨hst, hl⟩, hf]

/-- A file load that is allowed loads the image the file has (R262). -/
theorem hostAct_loadFile_of_some {s : State} (hst : s.status = .stopped) (hl : s.loaded = false) (order : ByteOrder)
    {file : Option (List Byte)} {origin : Word} {ws : List Word}
    (hf : file.bind (parseImage order) = some (origin, ws)) :
    hostAct (.loadFile order file) s = .next (loadImage origin ws s) := by
  simp [hostAct, (loadAllowed_iff s).2 ⟨hst, hl⟩, hf]

/-- A file too short for an origin or that ends mid-word has no image (R264). -/
theorem parseImage_of_bad (order : ByteOrder) {bytes : List Byte} (h : bytes.length < 2 ∨ bytes.length % 2 = 1) :
    parseImage order bytes = none := by
  by_cases hodd : bytes.length % 2 = 1
  · rw [parseImage, parseWords_of_odd order hodd]
  · have hnil : bytes = [] := List.length_eq_zero_iff.1 (by omega)
    rw [hnil]
    rfl

/-- Any other file is its origin and its data words, two bytes each in the file's order (R59, R264). -/
theorem parseImage_of_good (order : ByteOrder) {bytes : List Byte} (h2 : 2 ≤ bytes.length)
    (heven : bytes.length % 2 = 0) : ∃ origin ws, parseImage order bytes = some (origin, ws) ∧
      ws.length = bytes.length / 2 - 1 ∧ origin = wordOfBytes order (bytes.getD 0 0#8) (bytes.getD 1 0#8) ∧
      ∀ (k : Nat) (_ : k < ws.length),
        ws[k] = wordOfBytes order (bytes.getD (2 * k + 2) 0#8) (bytes.getD (2 * k + 3) 0#8) := by
  obtain ⟨words, hparse, hlen, hword⟩ := parseWords_of_even order heven
  cases words with
  | nil =>
    rw [List.length_nil] at hlen
    omega
  | cons origin ws =>
    rw [List.length_cons] at hlen
    refine ⟨origin, ws, by rw [parseImage, hparse], by omega, hword 0 (Nat.succ_pos _), fun k hk => ?_⟩
    exact hword (k + 1) (Nat.succ_lt_succ hk)

/-- The two bytes of a word as a number, in either order (R59). -/
theorem wordOfBytes_toNat (first second : Byte) :
    (wordOfBytes .big first second).toNat = 256 * first.toNat + second.toNat ∧
      (wordOfBytes .little first second).toNat = first.toNat + 256 * second.toNat := by
  have happend : ∀ high low : Byte, (high ++ low).toNat = 256 * high.toNat + low.toNat := fun high low => by
    rw [BitVec.toNat_append, ← Nat.shiftLeft_add_eq_or_of_lt low.isLt, Nat.shiftLeft_eq, Nat.mul_comm]
  exact ⟨happend first second, (happend second first).trans (Nat.add_comm _ _)⟩

/-- Settles O57: the file's parse decides between the fault and the load of the parsed words. -/
theorem imageFileLoadsWholeOrFails : Obligations.ImageFileLoadsWholeOrFails := by
  refine ⟨fun s order hst hl => ⟨hostAct_loadFile_of_none hst hl order rfl, fun bytes hbad => ?bad,
    fun bytes h2 heven => ?good⟩, wordOfBytes_toNat⟩
  case bad => exact hostAct_loadFile_of_none hst hl order (parseImage_of_bad order hbad)
  case good =>
    obtain ⟨origin, ws, hparse, hlen, horigin, hword⟩ := parseImage_of_good order h2 heven
    exact ⟨origin, ws, hlen, horigin, hword, (hostAct_loadFile_of_some (file := some bytes) hst hl order hparse).trans
      (hostAct_load_of_allowed hst hl origin ws).symm⟩

/-- A zero-extended character is the zero word only if it is the zero character. -/
theorem zext_ne_zero {c : Byte} (h : c ≠ 0#8) : (zext c : Word) ≠ 0#16 := by
  intro hz
  refine h ?_
  rw [← setWidth_zext (by decide) c, hz]
  rfl

/-- The words of a `.STRINGZ`: its characters and a zero word (R108). -/
theorem emit_stringz (chars : List Byte) (symbols : SymbolTable) (a : Nat) :
    (AsmStatement.stringz chars).emit symbols a = .ok (chars.map zext ++ [0#16]) := rfl

/-- `s` with the words `ws` loaded where R0 points. -/
def State.loadAtR0 (s : State) (ws : List Word) : State := { s with mem := s.mem.load (s.reg 0) ws }

/-- The words loaded where R0 points are the words of the string there, for at most 65536 of them. -/
theorem State.loadAtR0_memRead {s : State} (h : s.mem.wf = true) {ws : List Word} (hlen : ws.length ≤ 65536) {k : Nat}
    (hk : k < ws.length) : (s.loadAtR0 ws).memRead ((s.loadAtR0 ws).reg 0 + BitVec.ofNat 16 k) = ws[k] :=
  Memory.read_load_inside h (s.reg 0) ws hk (hlen.trans (Nat.le_add_left _ k))

/-- Settles O60: the block's words are the string PUTS scans, so O46 says what it writes: the low bytes of the
zero-extended characters, which are the characters. -/
theorem putsPrintsAStringzBlock : Obligations.PutsPrintsAStringzBlock := by
  intro s chars symbols a ws hwf hne hlen hemit
  rw [emit_stringz, Except.ok.injEq] at hemit
  have hws : ws.length = chars.length + 1 := by simp [← hemit]
  have hread : ∀ (k : Nat) (hk : k < ws.length),
      (s.loadAtR0 ws).memRead ((s.loadAtR0 ws).reg 0 + BitVec.ofNat 16 k) = ws[k] :=
    fun k hk => State.loadAtR0_memRead hwf (by omega) hk
  have hchar : ∀ (k : Nat) (hk : k < chars.length),
      (s.loadAtR0 ws).memRead ((s.loadAtR0 ws).reg 0 + BitVec.ofNat 16 k) = zext chars[k] := fun k hk => by
    rw [hread k (by omega)]
    simp [← hemit, hk]
  have hzero : (s.loadAtR0 ws).memRead ((s.loadAtR0 ws).reg 0 + BitVec.ofNat 16 chars.length) = 0#16 := by
    rw [hread chars.length (by omega)]
    simp [← hemit]
  have hnonzero : ∀ k, k < chars.length →
      (s.loadAtR0 ws).memRead ((s.loadAtR0 ws).reg 0 + BitVec.ofNat 16 k) ≠ 0#16 := fun k hk =>
    hchar k hk ▸ zext_ne_zero (hne _ (List.getElem_mem hk))
  obtain ⟨t, hexec, hout, hpc, -⟩ := putsWritesTheStringAndAdvancesThePC (s.loadAtR0 ws) chars.length hnonzero hzero
  have hchars : (List.range chars.length).map (fun i =>
      ((s.loadAtR0 ws).memRead ((s.loadAtR0 ws).reg 0 + BitVec.ofNat 16 i)).setWidth 8) = chars := by
    refine List.ext_getElem (by simp) fun k _ hk => ?_
    rw [List.getElem_map, List.getElem_range, hchar k hk, setWidth_zext (by decide)]
  rw [hchars] at hout
  exact ⟨t, hexec, hout, hpc⟩

end Sys2Proof.Machine
end
